-- ==== Sys2Proof/Word.lean ====
section
/-! DEFINITION. The Word of the Intcode core and its range (00_scope.md R6, R7), and the result of a check that may raise
a fault (R13, `raise F(info)`). -/

namespace Sys2Proof

/-- A Word: 64 bits, read as a two's-complement integer by `BitVec.toInt` (00_scope.md R6, `WORD_BITS = 64`). The width is
fixed. -- DESIGN CHOICE (safe, log entry 2) -/
abbrev Word := BitVec 64

/-- `WORD_MIN = -2^63` (R6). -/
def wordMin : Int := -9223372036854775808

/-- `WORD_MAX = 2^63 - 1` (R6). -/
def wordMax : Int := 9223372036854775807

/-- `ADDR_MAX = WORD_MAX` (R7). An address is a natural number, `0 <= a <= ADDR_MAX`. -/
def addrMax : Nat := 9223372036854775807

/-- What a check or a computation of the pre-commit phase gives: a value, or a raised fault (R13, R14). -/
inductive Checked (ε α : Type) where
  | ok (a : α)
  | raise (f : ε)
  deriving DecidableEq, Repr

/-- Go on with the value, or end with the fault already raised: nothing after a `raise` is evaluated (R162). -/
def Checked.bind {ε α β : Type} (x : Checked ε α) (k : α → Checked ε β) : Checked ε β :=
  match x with
  | .ok a => k a
  | .raise f => .raise f

end Sys2Proof
end

