-- ==== Sys2Proof/Config.lean ====
section
/-! DEFINITION. The parameters of the model (00_scope.md section 3) as plain data. They stand in `State.config`, so that a
statement over every state holds for every value of them. -- DESIGN CHOICE (safe, log entries 3 and 4) -/

namespace Sys2Proof

/-- `TRUNCATION_POLICY` (00_scope.md R9): when an operand word counts as not addressable. -/
inductive TruncationPolicy where
  /-- An operand word at or above the extent truncates: this spec's value. -/
  | extent
  /-- Only an operand word above `ADDR_MAX` truncates. -/
  | never
  deriving DecidableEq, Repr

/-- The OPEN parameter `mem_admits(M, a)` (00_scope.md R8), named as plain data. Each of 20_memory.md R45's two realisations
of the arbiter has its kind of limit. -/
inductive MemLimit where
  /-- "always true", the spec's default. -- DESIGN CHOICE (unsafe, log entry 3) -/
  | unlimited
  /-- A contiguous buffer of `n` Words: addresses below `n` only. -/
  | addressesBelow (n : Nat)
  /-- A sparse map of at most `n` cells that hold a value other than 0. -/
  | cellsAtMost (n : Nat)
  /-- Any limit at all: `Config.implementationAdmits`, of which nothing is known. -/
  | implementation
  deriving DecidableEq, Repr

/-- The parameters of 00_scope.md section 3 that are not numbers. No instruction and no host transaction changes them. -/
structure Config where
  truncation : TruncationPolicy
  strictExcessModes : Bool
  memLimit : MemLimit
  deriving DecidableEq, Repr

/-- The values that 00_scope.md section 3 gives: `EXTENT`, `false`, "always true". -/
def Config.spec : Config where
  truncation := .extent
  strictExcessModes := false
  memLimit := .unlimited

/-- `mem_admits(M, a)` of an implementation, uninterpreted: the cells of `M` and the address (00_scope.md R8,
92_eei_decisions.md D14). It does not see the extent (10_state.md R29). -/
opaque Config.implementationAdmits (cells : List (Nat × Word)) (a : Nat) : Bool

end Sys2Proof
end

