-- ==== Sys2Proof/Machine/State.lean ====
section
/-! DEFINITION. The whole state of the Intcode core (10_state.md), as plain data, and its value after reset. -/

namespace Sys2Proof.Machine

/-- The engine state (10_state.md R23). -/
inductive EngineState where
  /-- Constructed and never run. -/
  | idle
  /-- Inside a `run()`. -/
  | running
  /-- Stopped at an Input with an empty queue. -/
  | suspended
  /-- A Halt has executed; terminal. -/
  | halted
  /-- A fault ended a run; terminal. -/
  | faulted
  deriving DecidableEq, Repr

/-- The spec's seven faults (60_exceptions.md R161). Each is TAKEN: the machine enters FAULTED (R163), a next state. -/
inductive FaultKind where
  /-- Code 1: the instruction word is negative or its opcode is not in the table (R70, R71). -/
  | unknownOpcode
  /-- Code 2: an operand word is not addressable (R74). -/
  | truncatedInstruction
  /-- Code 3: an Immediate destination, or an operand address outside `0 .. ADDR_MAX` (R52, R53). -/
  | invalidOperand
  /-- Code 4: a mode digit 3 to 9, or an excess digit under STRICT_EXCESS_MODES (R72, R73). -/
  | invalidMode
  /-- Code 5: a result, the new `rb` or the advanced `pc` outside the Word range (R94, R110, R111, R130). -/
  | overflow
  /-- Code 6: `pc` outside `0 .. ADDR_MAX` at the start of a step (R90). -/
  | invalidPc
  /-- Code 7: `mem_admits` refuses the write (20_memory.md R46). -/
  | resourceExhausted
  deriving DecidableEq, Repr

/-- The host's transactions on a constructed machine (49_host_interface.md R142 to R147). -/
inductive HostCommand where
  /-- FEED(word), `feed_input(word)` (R142). -/
  | feed (w : Word)
  /-- RUN, `run()` (R143). -/
  | run
  /-- OUTPUT, `output()` (R144). -/
  | output
  /-- PEEK(addr), `memory_peek(address)`, of any integer (R145). -/
  | peek (addr : Int)
  /-- IS_HALTED, `is_halted()` (R146). -/
  | isHalted
  /-- IS_SUSPENDED, `is_suspended()` (R146). -/
  | isSuspended
  /-- STATUS_READ (R147). -/
  | statusRead
  deriving DecidableEq, Repr

/-- What the host gets back. FEED gets nothing (R149). -/
inductive HostResponse where
  /-- RUN answers `HALTED` (R143). -/
  | runHalted
  /-- RUN answers `SUSPENDED` (R143). -/
  | runSuspended
  /-- RUN answers `FAULT(code, fault_pc)` (R143). -/
  | runFault (code : Nat) (faultPc : Word)
  /-- OUTPUT answers the whole log, oldest first (R144). -/
  | output (log : List Word)
  /-- PEEK answers `(value, in_range)` (R145). -/
  | peek (value : Word) (inRange : Bool)
  /-- PEEK answers `PEEK_INVALID` (R145). -/
  | peekInvalid
  /-- IS_HALTED answers the flag (R146). -/
  | isHalted (flag : Bool)
  /-- IS_SUSPENDED answers the flag (R146). -/
  | isSuspended (flag : Bool)
  /-- STATUS_READ answers the STATUS word and FAULT_PC (R147). -/
  | status (word faultPc : Word)
  deriving DecidableEq, Repr

/-- The memory `M` (10_state.md R28): the cells that do not hold what an unlisted address reads as, addresses strictly
rising. The addressable unit is the Word (20_memory.md R47), so a cell is an address and a Word. -- DESIGN CHOICE (safe, log entry 1) -/
abbrev Memory := List (Nat × Word)

/-- What an address that was never written and not loaded reads as (10_state.md R28, 20_memory.md R41). -/
def Memory.unlisted : Word := 0

/-- The canonical form: addresses strictly rising, no cell equal to what an unlisted address reads as. -/
abbrev Memory.wf (m : Memory) : Prop :=
  List.Pairwise (fun c d : Nat × Word => c.1 < d.1) m ∧ ∀ c ∈ m, c.2 ≠ Memory.unlisted

/-- Every piece of state the spec gives the machine (10_state.md), its parameters, and the host's script and answers. -/
structure State where
  /-- The memory `M` (R28). -/
  mem : Memory
  /-- The extent `EXT` (R29). -/
  ext : Nat
  /-- The program counter (R21). -/
  pc : Word
  /-- The relative base (R22). -/
  rb : Word
  /-- The engine state `state` (R23); `halted`, `suspended` and `STATUS` are read from it (R24, R25). -/
  engine : EngineState
  /-- The input queue `InQ`, head first (R26). -/
  inQ : List Word
  /-- The output log `OutLog`, oldest first (R27). -/
  outLog : List Word
  /-- The register `FAULT_CODE` (R30): `none` is the spec's value 0, "no fault". -/
  faultCode : Option FaultKind
  /-- The register `FAULT_PC` (R31). -/
  faultPc : Word
  /-- The parameters (00_scope.md section 3). Nothing writes them. -/
  config : Config
  /-- The host's transactions still to be served, next first. -- DESIGN CHOICE (safe, log entry 5) -/
  pending : List HostCommand
  /-- The answers the host has got, oldest first. -- DESIGN CHOICE (safe, log entry 5) -/
  responses : List HostResponse
  deriving DecidableEq, Repr

/-- The reasons a step can stop the model: NONE. Every fault of the spec has an entry the spec describes (60_exceptions.md
R163), so it is a next state with `engine = faulted`; no access ever leaves the address space (20_memory.md R43). Nobody
raises a `Fault`; that is safe, because the spec's table of causes is complete (R161). (Log entry 11.) -/
inductive Fault where
  deriving DecidableEq, Repr

/-- The reasons an instruction has no meaning in the model. -/
inductive Refusal where
  /-- Raised by an arm of `exec` for an instruction that has no meaning yet. No arm raises it: all ten instructions are
  modelled. It would be safe. -/
  | notModelled (mnemonic : String)
  deriving DecidableEq, Repr

/-- The machine right after reset. Reset is LOAD (70_reset_and_hazards.md R180); this is LOAD of the empty word list, every
field at the value of 10_state.md R35 with `len = 0`. `load` in Machine/HostPort.lean is LOAD of any list. -- DESIGN CHOICE
(safe, log entry 7) -/
def State.reset : State where
  mem := []
  ext := 0
  pc := 0
  rb := 0
  engine := .idle
  inQ := []
  outLog := []
  faultCode := none
  faultPc := 0
  config := Config.spec
  pending := []
  responses := []

end Sys2Proof.Machine
end

