-- ==== Sys2Proof/Machine/Ops.lean ====
section
/-! DEFINITION. The named operations over memory and registers (20_memory.md section 1, 40_engine.md R93 and R94), taking a
fault (60_exceptions.md R163), and the end of a step's pre-commit phase (00_scope.md R14). -/

namespace Sys2Proof.Machine

/-- `M[a]` (20_memory.md R41). -/
def Memory.read : Memory → Nat → Word
  | [], _ => Memory.unlisted
  | (k, w) :: rest, a => if k = a then w else Memory.read rest a

/-- Put a cell at its place among cells with other addresses. -/
def Memory.insertCell (a : Nat) (v : Word) : Memory → Memory
  | [] => [(a, v)]
  | (k, w) :: rest => if k < a then (k, w) :: Memory.insertCell a v rest else (a, v) :: (k, w) :: rest

/-- `M[a] <- v` (20_memory.md R42): the cell there is removed, and a cell is listed unless it would hold what an unlisted
address reads as. -/
def Memory.write (m : Memory) (a : Nat) (v : Word) : Memory :=
  if v = Memory.unlisted then m.filter (fun c => c.1 != a) else Memory.insertCell a v (m.filter (fun c => c.1 != a))

/-- `MemRead(a)` (20_memory.md R41): no side effect, and 0 at or above the extent. -/
def State.memRead (s : State) (a : Nat) : Word :=
  s.mem.read a

/-- `MemWrite(a, v)` (20_memory.md R42): stores, and extends `EXT`. -/
def State.memWrite (s : State) (a : Nat) (v : Word) : State :=
  { s with mem := s.mem.write a v, ext := max s.ext (a + 1) }

/-- `mem_admits(M, a)` (00_scope.md R8), as `config` names it. -- DESIGN CHOICE (unsafe, log entry 3) -/
def State.memAdmits (s : State) (a : Nat) : Bool :=
  match s.config.memLimit with
  | .unlimited => true
  | .addressesBelow n => decide (a < n)
  | .cellsAtMost n => s.mem.any (fun c => c.1 == a) || decide (s.mem.length < n)
  | .implementation => Config.implementationAdmits s.mem a

/-- The capacity check before a write (20_memory.md R46). -/
def checkCapacity (s : State) (a : Nat) : Checked FaultKind Unit :=
  if s.memAdmits a = true then .ok () else .raise .resourceExhausted

/-- An exact result as a Word, or Overflow (00_scope.md R11, 41_arithmetic.md R109): nothing wraps. -/
def narrow (r : Int) : Checked FaultKind Word :=
  if wordMin ≤ r ∧ r ≤ wordMax then .ok (BitVec.ofInt 64 r) else .raise .overflow

/-- The default advance `npc = pc0 + n + 1` of an instruction of arity `n`, or Overflow (40_engine.md R93, R94). -/
def nextPc (s : State) (n : Nat) : Checked FaultKind Word :=
  narrow (s.pc.toInt + n + 1)

/-- TAKING A FAULT (60_exceptions.md R163): `state`, `FAULT_CODE` and `FAULT_PC` are written, and nothing else. The core has
no return from a fault (R165): FAULTED is absorbing. -/
def takeFault (f : FaultKind) (s : State) : State :=
  { s with engine := .faulted, faultCode := some f, faultPc := s.pc }

/-- The end of a step that started in `s` (00_scope.md R14): commit the state that the checks lead to, or take the fault they
raise, with no other effect. -/
def commitOrFault (s : State) (r : Checked FaultKind State) : Host.Outcome State Fault Refusal :=
  match r with
  | .ok t => .next t
  | .raise f => .next (takeFault f s)

end Sys2Proof.Machine
end

