-- ==== Sys2Proof/Syntax.lean ====
section
/-! DEFINITION. The instruction set as data: addressing modes, parameters and the ten instructions (30_encoding.md R67, R69,
R76; 00_scope.md R15). -/

namespace Sys2Proof

/-- The addressing mode of an operand (R69). -/
inductive Mode where
  /-- Position, digit 0: the operand word is an absolute address. -/
  | pos
  /-- Immediate, digit 1: the operand word is the value. -/
  | imm
  /-- Relative, digit 2: the operand word is an offset from the relative base. -/
  | rel
  deriving DecidableEq, Repr

/-- A parameter `p = (p.v, p.m)` (00_scope.md R15): the operand word as it stands (R68), and its mode. -/
structure Param where
  value : Word
  mode : Mode
  deriving DecidableEq, Repr

/-- A decoded instruction, "a closed tagged variant over opcodes" (R76): one constructor per row of the opcode table. -/
inductive Instr where
  /-- Opcode 1, `add s1, s2, d` (R110). -/
  | add (p1 p2 p3 : Param)
  /-- Opcode 2, `mul s1, s2, d` (R111). -/
  | mul (p1 p2 p3 : Param)
  /-- Opcode 3, `in d` (R115). -/
  | input (p1 : Param)
  /-- Opcode 4, `out s1` (R116). -/
  | output (p1 : Param)
  /-- Opcode 5, `jt s1, s2` (R120). -/
  | jumpIfTrue (p1 p2 : Param)
  /-- Opcode 6, `jf s1, s2` (R121). -/
  | jumpIfFalse (p1 p2 : Param)
  /-- Opcode 7, `lt s1, s2, d` (R125). -/
  | lessThan (p1 p2 p3 : Param)
  /-- Opcode 8, `eq s1, s2, d` (R126). -/
  | equal (p1 p2 p3 : Param)
  /-- Opcode 9, `arb s1` (R130). -/
  | adjustRelativeBase (p1 : Param)
  /-- Opcode 99, `hlt` (R135). -/
  | halt
  deriving DecidableEq, Repr

/-- The parameters of an instruction, in operand order. -/
def Instr.params : Instr → List Param
  | .add p1 p2 p3 => [p1, p2, p3]
  | .mul p1 p2 p3 => [p1, p2, p3]
  | .input p1 => [p1]
  | .output p1 => [p1]
  | .jumpIfTrue p1 p2 => [p1, p2]
  | .jumpIfFalse p1 p2 => [p1, p2]
  | .lessThan p1 p2 p3 => [p1, p2, p3]
  | .equal p1 p2 p3 => [p1, p2, p3]
  | .adjustRelativeBase p1 => [p1]
  | .halt => []

/-- The destination operand, where the instruction has one (the last column of R67's table). -/
def Instr.destination : Instr → Option Param
  | .add _ _ p3 => some p3
  | .mul _ _ p3 => some p3
  | .input p1 => some p1
  | .output _ => none
  | .jumpIfTrue _ _ => none
  | .jumpIfFalse _ _ => none
  | .lessThan _ _ p3 => some p3
  | .equal _ _ p3 => some p3
  | .adjustRelativeBase _ => none
  | .halt => none

/-- The source operands: every operand that is not the destination (R67). -/
def Instr.sources : Instr → List Param
  | .add p1 p2 _ => [p1, p2]
  | .mul p1 p2 _ => [p1, p2]
  | .input _ => []
  | .output p1 => [p1]
  | .jumpIfTrue p1 p2 => [p1, p2]
  | .jumpIfFalse p1 p2 => [p1, p2]
  | .lessThan p1 p2 _ => [p1, p2]
  | .equal p1 p2 _ => [p1, p2]
  | .adjustRelativeBase p1 => [p1]
  | .halt => []

end Sys2Proof
end

