-- ==== Sys2Proof/Machine/Operands.lean ====
section
/-! DEFINITION. The addressing resolver (20_memory.md section 4): every operand form. It reads `p`, `rb` and memory, and
writes nothing (R54). -/

namespace Sys2Proof.Machine

/-- The address that a Position or Relative operand names, an exact sum with no wrap (R52, R53); an address outside
`0 .. ADDR_MAX` is InvalidOperand. -/
def checkAddress (a : Int) : Checked FaultKind Nat :=
  if a < 0 ∨ addrMax < a then .raise .invalidOperand else .ok a.toNat

/-- `ValueOf(p)` (R52): the value of a source operand. -/
def valueOf (p : Param) (s : State) : Checked FaultKind Word :=
  match p.mode with
  | .imm => .ok p.value
  | .pos => (checkAddress p.value.toInt).bind fun a => .ok (s.memRead a)
  | .rel => (checkAddress (p.value.toInt + s.rb.toInt)).bind fun a => .ok (s.memRead a)

/-- `AddressOf(p)` (R53): the address of a destination operand. It does not read memory. -/
def addressOf (p : Param) (s : State) : Checked FaultKind Nat :=
  match p.mode with
  | .imm => .raise .invalidOperand
  | .pos => checkAddress p.value.toInt
  | .rel => checkAddress (p.value.toInt + s.rb.toInt)

end Sys2Proof.Machine
end

