-- ==== Sys2Proof/Machine/Arithmetic.lean ====
section
/-! DEFINITION. Add and Multiply (41_arithmetic.md), and the shape they share with the comparisons. -/

namespace Sys2Proof.Machine

/-- The shape of the four instructions of format F3 (41_arithmetic.md R110, R111, 44_compare.md R125, R126): two sources and
a destination resolved in operand order, the exact result `f a b`, the advance, the capacity check, one commit. -/
def storeResult (f : Int → Int → Int) (p1 p2 p3 : Param) (s : State) : Host.Outcome State Fault Refusal :=
  commitOrFault s <|
    (valueOf p1 s).bind fun a =>
    (valueOf p2 s).bind fun b =>
    (addressOf p3 s).bind fun c =>
    (narrow (f a.toInt b.toInt)).bind fun r =>
    (nextPc s 3).bind fun npc =>
    (checkCapacity s c).bind fun _ =>
    .ok { s.memWrite c r with pc := npc }

/-- Add (R110): `M[c] <- a + b`. -/
def execAdd (p1 p2 p3 : Param) (s : State) : Host.Outcome State Fault Refusal :=
  storeResult (fun a b => a + b) p1 p2 p3 s

/-- Multiply (R111): `M[c] <- a * b`. -/
def execMul (p1 p2 p3 : Param) (s : State) : Host.Outcome State Fault Refusal :=
  storeResult (fun a b => a * b) p1 p2 p3 s

end Sys2Proof.Machine
end

