-- ==== Sys2Proof/Machine/Compare.lean ====
section
/-! DEFINITION. LessThan and Equal (44_compare.md): the result is the Word 1 or 0. -/

namespace Sys2Proof.Machine

/-- LessThan (R125): signed. -/
def execLessThan (p1 p2 p3 : Param) (s : State) : Host.Outcome State Fault Refusal :=
  storeResult (fun a b => if a < b then 1 else 0) p1 p2 p3 s

/-- Equal (R126). -/
def execEqual (p1 p2 p3 : Param) (s : State) : Host.Outcome State Fault Refusal :=
  storeResult (fun a b => if a = b then 1 else 0) p1 p2 p3 s

end Sys2Proof.Machine
end

