-- ==== Sys2Proof/Machine/Halt.lean ====
section
/-! DEFINITION. Halt (46_halt.md). -/

namespace Sys2Proof.Machine

/-- Halt (R135): `state <- HALTED`, and the default advance (92_eei_decisions.md D21; log entry 9). -/
def execHalt (s : State) : Host.Outcome State Fault Refusal :=
  commitOrFault s <|
    (nextPc s 0).bind fun npc =>
    .ok { s with engine := .halted, pc := npc }

end Sys2Proof.Machine
end

