-- ==== Sys2Proof/Machine/InputOutput.lean ====
section
/-! DEFINITION. Input and Output (42_io.md). -/

namespace Sys2Proof.Machine

/-- Input (R115). The destination is resolved before the queue is tested; with an empty queue the only effect is
`state <- SUSPENDED`. -/
def execInput (p1 : Param) (s : State) : Host.Outcome State Fault Refusal :=
  commitOrFault s <|
    (addressOf p1 s).bind fun c =>
    match s.inQ with
    | [] => .ok { s with engine := .suspended }
    | v :: rest =>
      (nextPc s 1).bind fun npc =>
      (checkCapacity s c).bind fun _ =>
      .ok { s.memWrite c v with inQ := rest, pc := npc }

/-- Output (R116): append the value to the log. -/
def execOutput (p1 : Param) (s : State) : Host.Outcome State Fault Refusal :=
  commitOrFault s <|
    (valueOf p1 s).bind fun a =>
    (nextPc s 1).bind fun npc =>
    .ok { s with outLog := s.outLog ++ [a], pc := npc }

end Sys2Proof.Machine
end

