-- ==== Sys2Proof/Machine/Jumps.lean ====
section
/-! DEFINITION. JumpIfTrue and JumpIfFalse (43_jumps.md). -/

namespace Sys2Proof.Machine

/-- A conditional jump: both operands are resolved, taken or not (92_eei_decisions.md D11). A taken jump loads any Word into
`pc` and computes no advance (40_engine.md R93, R94). -/
def jumpIf (taken : Word → Bool) (p1 p2 : Param) (s : State) : Host.Outcome State Fault Refusal :=
  commitOrFault s <|
    (valueOf p1 s).bind fun a =>
    (valueOf p2 s).bind fun b =>
    if taken a = true then .ok { s with pc := b }
    else (nextPc s 2).bind fun npc => .ok { s with pc := npc }

/-- JumpIfTrue (R120): any value but 0 is true. -/
def execJumpIfTrue (p1 p2 : Param) (s : State) : Host.Outcome State Fault Refusal :=
  jumpIf (fun a => a != 0) p1 p2 s

/-- JumpIfFalse (R121): only 0 takes the jump. -/
def execJumpIfFalse (p1 p2 : Param) (s : State) : Host.Outcome State Fault Refusal :=
  jumpIf (fun a => a == 0) p1 p2 s

end Sys2Proof.Machine
end

