-- ==== Sys2Proof/Machine/RelativeBase.lean ====
section
/-! DEFINITION. AdjustRelativeBase (45_relative_base.md), the only writer of `rb`. -/

namespace Sys2Proof.Machine

/-- AdjustRelativeBase (R130): `rb <- rb + a`; a Relative operand uses the old `rb`, and the new one may be negative. -/
def execAdjustRelativeBase (p1 : Param) (s : State) : Host.Outcome State Fault Refusal :=
  commitOrFault s <|
    (valueOf p1 s).bind fun a =>
    (narrow (s.rb.toInt + a.toInt)).bind fun r =>
    (nextPc s 1).bind fun npc =>
    .ok { s with rb := r, pc := npc }

end Sys2Proof.Machine
end

