-- ==== Sys2Proof/Decode.lean ====
section
/-! DEFINITION. The opcode table, the decoder and the encoder (30_encoding.md). Decimal digits, no binary fields. -/

namespace Sys2Proof

/-- A fault the decoder raises, with the `info` of R75. -/
inductive DecodeFault where
  /-- The word is negative (R70) or its opcode is not in the table (R71). -/
  | unknownOpcode (raw : Word)
  /-- One of the `n` operand words is not addressable (R74). -/
  | truncatedInstruction (n : Nat)
  /-- The mode digit `d` at position `i`, counted from 1, is not a mode (R72), or is an excess digit under
  `STRICT_EXCESS_MODES` (R73). -/
  | invalidMode (i d : Nat)
  deriving DecidableEq, Repr

/-- The ten opcodes of R67. -/
inductive Opcode where
  | add | mul | input | output | jumpIfTrue | jumpIfFalse | lessThan | equal | adjustRelativeBase | halt
  deriving DecidableEq, Repr

/-- The opcode column of R67. -/
def Opcode.number : Opcode → Nat
  | .add => 1
  | .mul => 2
  | .input => 3
  | .output => 4
  | .jumpIfTrue => 5
  | .jumpIfFalse => 6
  | .lessThan => 7
  | .equal => 8
  | .adjustRelativeBase => 9
  | .halt => 99

/-- The arity column of R67: "a pure function of its opcode alone" (R65). -/
def Opcode.arity : Opcode → Nat
  | .add => 3
  | .mul => 3
  | .input => 1
  | .output => 1
  | .jumpIfTrue => 2
  | .jumpIfFalse => 2
  | .lessThan => 3
  | .equal => 3
  | .adjustRelativeBase => 1
  | .halt => 0

/-- The rows of R67, in the table's order. -/
def opcodeTable : List Opcode :=
  [.add, .mul, .input, .output, .jumpIfTrue, .jumpIfFalse, .lessThan, .equal, .adjustRelativeBase, .halt]

/-- The lookup of an opcode number; `none` outside the table (R67, R84). -/
def lookupOpcode (n : Nat) : Option Opcode :=
  opcodeTable.find? fun op => op.number == n

/-- The opcode of an instruction (R76). -/
def Instr.opcode : Instr → Opcode
  | .add _ _ _ => .add
  | .mul _ _ _ => .mul
  | .input _ => .input
  | .output _ => .output
  | .jumpIfTrue _ _ => .jumpIfTrue
  | .jumpIfFalse _ _ => .jumpIfFalse
  | .lessThan _ _ _ => .lessThan
  | .equal _ _ _ => .equal
  | .adjustRelativeBase _ => .adjustRelativeBase
  | .halt => .halt

/-- `digit_k(v)` (00_scope.md R12). -/
def digit (k v : Nat) : Nat :=
  v / 10 ^ k % 10

/-- The mode of a digit (R69); `none` for 3 to 9. -- PRESUMED: digit 2 is Relative (unsafe, log entry 10; the spec's own mark,
93_implementation_defined.md I3) -/
def Mode.ofDigit (d : Nat) : Option Mode :=
  match d with
  | 0 => some .pos
  | 1 => some .imm
  | 2 => some .rel
  | _ => none

/-- The digit of a mode (R69). -/
def Mode.digit : Mode → Nat
  | .pos => 0
  | .imm => 1
  | .rel => 2

/-- Operand `i` (from 1) with the operand word `v`, its mode taken from the mode word `md` (R66, R68, R72). -/
def decodeParam (md i : Nat) (v : Word) : Checked DecodeFault Param :=
  match Mode.ofDigit (digit (i - 1) md) with
  | some m => .ok { value := v, mode := m }
  | none => .raise (.invalidMode i (digit (i - 1) md))

/-- The excess check that ends the decoder (R73, R75), for an instruction of arity `n`. -/
def checkExcess (strict : Bool) (md n : Nat) (i : Instr) : Checked DecodeFault Instr :=
  if strict = true ∧ md / 10 ^ n ≠ 0 then .raise (.invalidMode (n + 1) (digit n md)) else .ok i

/-- Format F1: one operand word (R65). -/
def decodeF1 (mk : Param → Instr) (strict : Bool) (md : Nat) : List Word → Checked DecodeFault Instr
  | v1 :: _ =>
    (decodeParam md 1 v1).bind fun p1 =>
    checkExcess strict md 1 (mk p1)
  | [] => .raise (.truncatedInstruction 1)

/-- Format F2: two operand words (R65). -/
def decodeF2 (mk : Param → Param → Instr) (strict : Bool) (md : Nat) : List Word → Checked DecodeFault Instr
  | v1 :: v2 :: _ =>
    (decodeParam md 1 v1).bind fun p1 =>
    (decodeParam md 2 v2).bind fun p2 =>
    checkExcess strict md 2 (mk p1 p2)
  | _ => .raise (.truncatedInstruction 2)

/-- Format F3: three operand words (R65). -/
def decodeF3 (mk : Param → Param → Param → Instr) (strict : Bool) (md : Nat) :
    List Word → Checked DecodeFault Instr
  | v1 :: v2 :: v3 :: _ =>
    (decodeParam md 1 v1).bind fun p1 =>
    (decodeParam md 2 v2).bind fun p2 =>
    (decodeParam md 3 v3).bind fun p3 =>
    checkExcess strict md 3 (mk p1 p2 p3)
  | _ => .raise (.truncatedInstruction 3)

/-- The operand fetch and the zip with modes, for an opcode of the table (R75). -/
def decodeOperands (op : Opcode) (strict : Bool) (md : Nat) (operands : List Word) : Checked DecodeFault Instr :=
  match op with
  | .add => decodeF3 .add strict md operands
  | .mul => decodeF3 .mul strict md operands
  | .input => decodeF1 .input strict md operands
  | .output => decodeF1 .output strict md operands
  | .jumpIfTrue => decodeF2 .jumpIfTrue strict md operands
  | .jumpIfFalse => decodeF2 .jumpIfFalse strict md operands
  | .lessThan => decodeF3 .lessThan strict md operands
  | .equal => decodeF3 .equal strict md operands
  | .adjustRelativeBase => decodeF1 .adjustRelativeBase strict md operands
  | .halt => checkExcess strict md 0 .halt

/-- The decoder (R75) on an instruction word and the addressable words after it, in ascending order. Total: an instruction,
or exactly one fault. The checks run in the source's order: opcode lookup, operand words, mode digits, excess digits. -/
def decode (strict : Bool) (raw : Word) (operands : List Word) : Checked DecodeFault Instr :=
  if raw.toInt < 0 then .raise (.unknownOpcode raw)
  else
    match lookupOpcode (raw.toNat % 100) with
    | none => .raise (.unknownOpcode raw)
    | some op => decodeOperands op strict (raw.toNat / 100) operands

/-- The mode digits as a mode word, the first operand's digit least significant (R66, R80). -/
def modeWord : List Mode → Nat
  | [] => 0
  | m :: ms => m.digit + 10 * modeWord ms

/-- The canonical instruction word of an opcode and modes (R80): `op + 100*d_1 + 1000*d_2 + 10000*d_3`. -/
def canonicalNat (op : Opcode) (modes : List Mode) : Nat :=
  op.number + 100 * modeWord modes

/-- The canonical instruction word of an instruction (R80). -/
def encodeNat (i : Instr) : Nat :=
  canonicalNat i.opcode (i.params.map Param.mode)

/-- The canonical words of an instruction: the instruction word, then its operand words in order (R65, R82). -/
def encode (i : Instr) : List Word :=
  BitVec.ofNat 64 (encodeNat i) :: i.params.map Param.value

/-- The instruction this decoder reads from a row's bits: word `k` of the instruction is bits `64k + 63 .. 64k` of `w`, and
every bit at or above `nbits` is 0, so that there are always three operand words. -- DESIGN CHOICE (safe, log entry 15) -/
def tableWords (nbits w : Nat) : List Word :=
  let bits := w % 2 ^ nbits
  [BitVec.ofNat 64 bits, BitVec.ofNat 64 (bits / 2 ^ 64), BitVec.ofNat 64 (bits / 2 ^ 128), BitVec.ofNat 64 (bits / 2 ^ 192)]

/-- What the decoder gives on those words, under this spec's `STRICT_EXCESS_MODES = false`. -/
def decodeTableWord (nbits w : Nat) : Option Instr :=
  match tableWords nbits w with
  | [] => none
  | raw :: operands =>
    match decode false raw operands with
    | .ok i => some i
    | .raise _ => none

end Sys2Proof
end

