-- ==== Sys2Proof/Machine/Fetch.lean ====
section
/-! DEFINITION. Fetching an instruction (40_engine.md R90, 20_memory.md R55): the instruction word, the operand words the
truncation policy lets the decoder read, and the decoder's answer as a fault of R161. -/

namespace Sys2Proof.Machine

/-- Whether an operand word at `a` is addressable (30_encoding.md R74, R75). -/
def State.operandReadable (s : State) (a : Nat) : Bool :=
  decide (a ≤ addrMax) &&
    match s.config.truncation with
    | .extent => decide (a < s.ext)
    | .never => true

/-- The addressable words after the instruction word at `a`, at most three, in ascending order (R55, R68). -/
def State.operandWords (s : State) (a : Nat) : List Word :=
  (([a + 1, a + 2, a + 3] : List Nat).takeWhile s.operandReadable).map s.memRead

/-- The fault that a decoder's answer raises (60_exceptions.md R161). The `info` is not recorded. -/
def faultOfDecode : DecodeFault → FaultKind
  | .unknownOpcode _ => .unknownOpcode
  | .truncatedInstruction _ => .truncatedInstruction
  | .invalidMode _ _ => .invalidMode

/-- `Decode(pc)` (30_encoding.md R75) at the address `a`, the instruction word read first. -/
def State.decodeAt (s : State) (a : Nat) : Checked DecodeFault Instr :=
  decode s.config.strictExcessModes (s.memRead a) (s.operandWords a)

/-- The head of `Step` (40_engine.md R90): the range of `pc`, then the decoder. -/
def fetch (s : State) : Checked FaultKind Instr :=
  if s.pc.toInt < 0 ∨ addrMax < s.pc.toInt then .raise .invalidPc
  else
    match s.decodeAt s.pc.toNat with
    | .ok i => .ok i
    | .raise f => .raise (faultOfDecode f)

end Sys2Proof.Machine
end

