-- ==== Sys2Proof/Machine/Flags.lean ====
section
/-! DEFINITION. The status flags and the STATUS word (10_state.md R24, R25, R30). There are no condition codes (R33): these
are all the flags, each a function of the engine state. -/

namespace Sys2Proof.Machine

/-- `halted = (state == HALTED)` (R24). -/
def State.isHalted (s : State) : Bool :=
  s.engine == .halted

/-- `suspended = (state == SUSPENDED)` (R24). -/
def State.isSuspended (s : State) : Bool :=
  s.engine == .suspended

/-- The code of a fault (60_exceptions.md R161). -/
def FaultKind.code : FaultKind → Nat
  | .unknownOpcode => 1
  | .truncatedInstruction => 2
  | .invalidOperand => 3
  | .invalidMode => 4
  | .overflow => 5
  | .invalidPc => 6
  | .resourceExhausted => 7

/-- The number in `FAULT_CODE` (R30): 0 where no fault is recorded. -/
def State.faultNumber (s : State) : Nat :=
  match s.faultCode with
  | none => 0
  | some f => f.code

/-- The four state bits of STATUS (R25): `[0]` HALTED, `[1]` SUSPENDED, `[2]` FAULTED, `[3]` RUNNING. -/
def EngineState.statusBits : EngineState → Nat
  | .idle => 0
  | .halted => 1
  | .suspended => 2
  | .faulted => 4
  | .running => 8

/-- The STATUS word (R25): the state bits, `FAULT_CODE` in bits `[7:4]`, every other bit 0. -/
def State.status (s : State) : Word :=
  BitVec.ofNat 64 (s.engine.statusBits + 16 * s.faultNumber)

end Sys2Proof.Machine
end

