-- ==== Sys2Proof/Machine/HostPort.lean ====
section
/-! DEFINITION. The host port (49_host_interface.md): LOAD, the transactions between runs, and the end of a run. -/

namespace Sys2Proof.Machine

/-- The memory that a word list leaves from address `base` upward (R140). -/
def Memory.ofWords (base : Nat) : List Word → Memory
  | [] => []
  | w :: ws => if w = Memory.unlisted then Memory.ofWords (base + 1) ws else (base, w) :: Memory.ofWords (base + 1) ws

/-- LOAD (R140), the source's `construct(initial_words)`, with the parameters of the machine (R151). A list with an element
outside the Word range or more than `ADDR_MAX + 1` elements is refused: no machine is created. -/
def load (cfg : Config) (ws : List Int) : Option State :=
  if ws.length ≤ addrMax + 1 ∧ ∀ w ∈ ws, wordMin ≤ w ∧ w ≤ wordMax then
    some { State.reset with
      mem := Memory.ofWords 0 (ws.map (BitVec.ofInt 64)), ext := ws.length, config := cfg }
  else none

/-- RUN's answer (R143): `FAULT(FAULT_CODE, FAULT_PC)`, `SUSPENDED` or `HALTED`; none while the run goes on. -/
def State.runResponse (s : State) : List HostResponse :=
  match s.engine with
  | .idle => []
  | .running => []
  | .suspended => [.runSuspended]
  | .halted => [.runHalted]
  | .faulted => [.runFault s.faultNumber s.faultPc]

/-- Give the host an answer. -/
def State.respond (s : State) (rs : List HostResponse) : State :=
  { s with responses := s.responses ++ rs }

/-- The end of the loop body of `run()` (40_engine.md R95): a step that leaves RUNNING ends the run, and RUN answers. -/
def endOfStep (s : State) : State :=
  s.respond s.runResponse

/-- `OUT_LEN`, the optional signal form of OUTPUT (R144, 92_eei_decisions.md D25). -/
def State.outLen (s : State) : Nat :=
  s.outLog.length

/-- `OUT_DATA(i)` for `0 <= i < OUT_LEN` (R144). -/
def State.outData (s : State) (i : Nat) : Option Word :=
  s.outLog[i]?

/-- PEEK(addr) (R145): a value and the in-range flag, or PEEK_INVALID. -/
def State.peek (s : State) (addr : Int) : HostResponse :=
  if 0 ≤ addr ∧ addr ≤ addrMax then .peek (s.memRead addr.toNat) (decide (addr < s.ext)) else .peekInvalid

/-- RUN at its entry (40_engine.md R95 to R98): from IDLE and SUSPENDED a run begins; on a HALTED or FAULTED machine it
answers at once and takes no step. -/
def enterRun (s : State) : State :=
  match s.engine with
  | .idle => { s with engine := .running }
  | .running => s
  | .suspended => { s with engine := .running }
  | .halted => s.respond s.runResponse
  | .faulted => s.respond s.runResponse

/-- One transaction (R142 to R147). Only FEED and RUN change the machine. -/
def serve (c : HostCommand) (s : State) : State :=
  match c with
  | .feed w => { s with inQ := s.inQ ++ [w] }
  | .run => enterRun s
  | .output => s.respond [.output s.outLog]
  | .peek addr => s.respond [s.peek addr]
  | .isHalted => s.respond [.isHalted s.isHalted]
  | .isSuspended => s.respond [.isSuspended s.isSuspended]
  | .statusRead => s.respond [.status s.status s.faultPc]

/-- The host's move between runs (R141): its next transaction, or nothing, where it wants none. -- DESIGN CHOICE (safe, log
entry 6: a machine that nobody drives stays as it is) -/
def hostMove (s : State) : State :=
  match s.pending with
  | [] => s
  | c :: rest => serve c { s with pending := rest }

end Sys2Proof.Machine
end

