-- ==== Sys2Proof/Machine/Engine.lean ====
section
/-! DEFINITION. The execution engine (40_engine.md): one instruction, the end of the loop body of `run()`, and the placing of
words in memory. Machine/Step.lean calls these. -/

namespace Sys2Proof.Machine

/-- `Step()` while RUNNING (40_engine.md R90): fetch, decode, execute; a fault of the fetch is taken. -/
def instructionStep (s : State) : Host.Outcome State Fault Refusal :=
  match fetch s with
  | .raise f => .next (takeFault f s)
  | .ok i => exec i s

/-- After the instruction, a state that has left RUNNING ends the run (40_engine.md R95). -/
def finish (o : Host.Outcome State Fault Refusal) : Host.Outcome State Fault Refusal :=
  match o with
  | .next t => .next (endOfStep t)
  | .fault r => .fault r
  | .refused r => .refused r

/-- Store words from address `a` upward, up to `ADDR_MAX` (R7). -/
def State.storeWords (s : State) (a : Nat) : List Word → State
  | [] => s
  | w :: ws => if a ≤ addrMax then State.storeWords (s.memWrite a w) (a + 1) ws else s

end Sys2Proof.Machine
end

