-- ==== Sys2Proof/Machine/Step.lean ====
section
/-! DEFINITION. The step of the machine and its host (40_engine.md R90, R91, R95, 49_host_interface.md R141). -/

namespace Sys2Proof.Machine

/-- One move of the machine with its host: an instruction while RUNNING (R91), a transaction of the host otherwise (R141). It
has no fuel: an endless run is a behaviour of the core (R99). -/
def step (s : State) : Host.Outcome State Fault Refusal :=
  match s.engine with
  | .running => finish (instructionStep s)
  | .idle => .next (hostMove s)
  | .suspended => .next (hostMove s)
  | .halted => .next (hostMove s)
  | .faulted => .next (hostMove s)

/-- `s` with the table's instruction stored at its `pc`, where the step fetches, and a run in progress: it stands for the LOAD
and RUN of the host (log entry 7). -/
def State.withFetchWord (s : State) (nbits w : Nat) : State :=
  { s.storeWords s.pc.toNat (tableWords nbits w) with engine := .running }

end Sys2Proof.Machine
end

