-- ==== Sys2Proof/Assembly.lean ====
section
/-! DEFINITION. The assembly notation of 30_encoding.md R81 and R82: the lines of a program, the assembler and the
disassembler. Nothing in the machine depends on it (R81); the programs of 95_test_vectors.md section 4 are written in it. -/

namespace Sys2Proof

/-- What may stand for `n` in an operand (R81): a number, or a label, which stands for its address. -/
inductive AsmValue where
  | num (n : Int)
  | label (name : String)
  deriving DecidableEq, Repr

/-- An operand, in the four forms of R81. -/
inductive AsmOperand where
  /-- `[n]`: Position with word `n`. -/
  | pos (n : AsmValue)
  /-- `#n`: Immediate with word `n`. -/
  | imm (n : AsmValue)
  /-- `[rb+n]`: Relative with word `n`. -/
  | relPlus (n : AsmValue)
  /-- `[rb-n]`: Relative with word `-n`. -/
  | relMinus (n : AsmValue)
  deriving DecidableEq, Repr

/-- The mode that a form gives. -/
def AsmOperand.mode : AsmOperand → Mode
  | .pos _ => .pos
  | .imm _ => .imm
  | .relPlus _ => .rel
  | .relMinus _ => .rel

/-- What stands for `n` in a form. -/
def AsmOperand.value : AsmOperand → AsmValue
  | .pos n => n
  | .imm n => n
  | .relPlus n => n
  | .relMinus n => n

/-- The operand word of a form whose `n` is the integer `n`. -- DESIGN CHOICE: a written number may be negative in `[rb+n]` and
`[rb-n]` too (safe, log entry 19) -/
def AsmOperand.signed (o : AsmOperand) (n : Int) : Int :=
  match o with
  | .pos _ => n
  | .imm _ => n
  | .relPlus _ => n
  | .relMinus _ => -n

/-- A line of a program (R81). -/
inductive AsmLine where
  /-- `name:`, the address of the next word. -/
  | label (name : String)
  /-- An instruction, its operands in order. -/
  | op (opcode : Opcode) (operands : List AsmOperand)
  /-- `.word w1, w2, ...`: raw Words. -- DESIGN CHOICE: a label may stand for one (safe, log entry 22) -/
  | words (ws : List AsmValue)
  deriving DecidableEq, Repr

/-- The mnemonics of R81. -/
def Opcode.mnemonic : Opcode → String
  | .add => "add"
  | .mul => "mul"
  | .input => "in"
  | .output => "out"
  | .jumpIfTrue => "jt"
  | .jumpIfFalse => "jf"
  | .lessThan => "lt"
  | .equal => "eq"
  | .adjustRelativeBase => "arb"
  | .halt => "hlt"

/-- How an operand is written (R81). -/
def Param.text (p : Param) : String :=
  match p.mode with
  | .pos => "[" ++ toString p.value.toInt ++ "]"
  | .imm => "#" ++ toString p.value.toInt
  | .rel =>
    if p.value.toInt < 0 then "[rb-" ++ toString p.value.toInt.natAbs ++ "]"
    else "[rb+" ++ toString p.value.toInt.natAbs ++ "]"

/-- How an instruction is written (R81); `hlt` has no operands and nothing after it. -- DESIGN CHOICE: one blank after the
mnemonic and one after each comma, where the spec's examples differ (safe, log entry 20) -/
def Instr.text (i : Instr) : String :=
  match i.params with
  | [] => i.opcode.mnemonic
  | p :: ps => i.opcode.mnemonic ++ " " ++ String.intercalate ", " ((p :: ps).map Param.text)

/-- The number of words of a line. -/
def AsmLine.size : AsmLine → Nat
  | .label _ => 0
  | .op _ operands => operands.length + 1
  | .words ws => ws.length

/-- The number of words of a program. -/
def asmLength (lines : List AsmLine) : Nat :=
  (lines.map AsmLine.size).sum

/-- The labels of a program whose first word stands at `a`, each with its address. -/
def labelsFrom (a : Nat) : List AsmLine → List (String × Nat)
  | [] => []
  | .label name :: rest => (name, a) :: labelsFrom a rest
  | l :: rest => labelsFrom (a + l.size) rest

/-- A value as an integer: a number, or the address of a label (R81). -- DESIGN CHOICE: a label defined twice stands for its FIRST
definition; an undefined label is refused (safe, log entry 19) -/
def AsmValue.int? (labels : List (String × Nat)) : AsmValue → Option Int
  | .num n => some n
  | .label name => (labels.lookup name).map Int.ofNat

/-- An integer as a Word. -- DESIGN CHOICE: one outside the Word range is refused (safe, log entry 19) -/
def wordOf? (n : Int) : Option Word :=
  if wordMin ≤ n ∧ n ≤ wordMax then some (BitVec.ofInt 64 n) else none

/-- The Word that `.word` places for a value (R81). -/
def AsmValue.word? (labels : List (String × Nat)) (v : AsmValue) : Option Word :=
  (v.int? labels).bind wordOf?

/-- The operand word of an operand (R81). -/
def AsmOperand.word? (labels : List (String × Nat)) (o : AsmOperand) : Option Word :=
  (o.value.int? labels).bind fun n => wordOf? (o.signed n)

/-- The words of a line (R82). -- DESIGN CHOICE: refused where the number of operands is not the arity (safe, log entry 19); a
label may stand in `.word`, and places its address (safe, log entry 22) -/
def AsmLine.words? (labels : List (String × Nat)) : AsmLine → Option (List Word)
  | .label _ => some []
  | .op opc operands =>
    if operands.length = opc.arity then
      (operands.mapM fun o : AsmOperand => o.word? labels).map
        (BitVec.ofNat 64 (canonicalNat opc (operands.map AsmOperand.mode)) :: ·)
    else none
  | .words ws => ws.mapM fun v => v.word? labels

/-- The words of a program that LOAD places from address 0 upward (R82, 49_host_interface.md R140). -/
def assemble (lines : List AsmLine) : Option (List Word) :=
  (lines.mapM fun l => AsmLine.words? (labelsFrom 0 lines) l).map List.flatten

/-- How the word `raw`, followed by `operands`, is printed (R82): a canonical instruction, or `.word raw` for a non-canonical
or an illegal word. -- DESIGN CHOICE: a canonical word with fewer operand words after it than its arity also prints as
`.word raw` (safe, log entry 21) -/
def disassemble (raw : Word) (operands : List Word) : String :=
  match decode false raw operands with
  | .ok i => if raw.toNat = encodeNat i then i.text else ".word " ++ toString raw.toInt
  | .raise _ => ".word " ++ toString raw.toInt

end Sys2Proof
end

