-- ==== Sys2Proof/WellFormed.lean ====
section
/-! DEFINITION. Which instructions use only the operand modes that opcode_table.json allows (30_encoding.md R83). -/

namespace Sys2Proof

/-- A destination is written in mode POS or REL, never IMM ("A destination operand may never be in Immediate mode", 20_memory.md
R53; the `modes` of opcode_table.json). The DECODER does not ask for this (R77): an instruction that is not well formed
decodes, and faults InvalidOperand when it executes. -/
def Instr.wellFormed (i : Instr) : Bool :=
  match i.destination with
  | none => true
  | some p => p.mode != .imm

end Sys2Proof
end

