-- ==== Sys2Proof/Safety.lean ====
section
/-! DEFINITION. The terms in which claims are stated: the invariant of the machine, what an outcome is, and what an instruction
leaves unchanged. -/

namespace Sys2Proof.Machine

/-- What holds in every state that LOAD and the steps reach: memory in its canonical form, every listed cell inside the extent
(10_state.md R29), the extent within the address space, and the fault registers written exactly in FAULTED (R30, R31). -/
structure State.Inv (s : State) : Prop where
  memWf : s.mem.wf
  inExtent : ∀ c ∈ s.mem, c.1 < s.ext
  extLe : s.ext ≤ addrMax + 1
  codeIff : s.faultCode.isSome ↔ s.engine = .faulted
  pcUnset : s.faultCode = none → s.faultPc = 0

/-- The state an outcome goes on in. -/
def nextState? : Host.Outcome State Fault Refusal → Option State
  | .next t => some t
  | .fault _ => none
  | .refused _ => none

/-- The fault entry of 60_exceptions.md R163, written out: these three registers and no other change. -/
def FaultsWith (o : Host.Outcome State Fault Refusal) (s : State) (f : FaultKind) : Prop :=
  o = .next { s with engine := .faulted, faultCode := some f, faultPc := s.pc }

/-- `t` is `s` after a store of the integer `r` at `c` by an instruction of `n` words (20_memory.md R42, 40_engine.md R93): the
cell, the extent and the pc change, every other address reads as before, and every other piece of state is as it was. -/
def StoredResult (s t : State) (c : Nat) (r : Int) (n : Nat) : Prop :=
  (t.memRead c).toInt = r ∧ (∀ a, a ≠ c → t.memRead a = s.memRead a) ∧
  t.ext = max s.ext (c + 1) ∧ t.pc.toInt = s.pc.toInt + n ∧
  t = { s with mem := t.mem, ext := t.ext, pc := t.pc }

/-- A store of `r` at `c` by a four-word instruction, or the fault that turns it away, in the order of 60_exceptions.md R162:
Overflow of the advance, then ResourceExhausted. -/
def StoresOrFaults (o : Host.Outcome State Fault Refusal) (s : State) (c : Nat) (r : Int) : Prop :=
  (s.pc.toInt + 4 ≤ wordMax → s.memAdmits c = true → ∃ t, o = .next t ∧ StoredResult s t c r 4) ∧
  (wordMax < s.pc.toInt + 4 → FaultsWith o s .overflow) ∧
  (s.pc.toInt + 4 ≤ wordMax → s.memAdmits c = false → FaultsWith o s .resourceExhausted)

/-- InvalidOperand of an instruction with two sources and a destination, in operand order (60_exceptions.md R162). -/
def OperandFaults (mk : Param → Param → Param → Instr) : Prop :=
  ∀ (p1 p2 p3 : Param) (s : State),
    (valueOf p1 s = .raise .invalidOperand → FaultsWith (exec (mk p1 p2 p3) s) s .invalidOperand) ∧
    (∀ a, valueOf p1 s = .ok a → valueOf p2 s = .raise .invalidOperand →
      FaultsWith (exec (mk p1 p2 p3) s) s .invalidOperand) ∧
    (∀ a b, valueOf p1 s = .ok a → valueOf p2 s = .ok b → addressOf p3 s = .raise .invalidOperand →
      FaultsWith (exec (mk p1 p2 p3) s) s .invalidOperand)

/-- The **Encoding** line of an instruction's rule (41_arithmetic.md to 46_halt.md): a word that decodes to `i` has
`raw mod 100 == n`, and the mode of operand `j` is `digit_(j+1)(raw)`, `j` counted from 1. Which mode a digit
means is R69's table (digit 2: log entry 10). -/
def EncodedAs (n : Nat) (i : Instr) : Prop :=
  ∀ (strict : Bool) (raw : Word) (words : List Word), decode strict raw words = .ok i →
    0 ≤ raw.toInt ∧ raw.toNat % 100 = n ∧ ∀ j p, i.params[j]? = some p → p.mode.digit = digit (j + 2) raw.toNat

/-- What a value of the notation stands for in `program` (30_encoding.md R81): a number for itself, a label for the address of
the word after a line that defines it. -/
def ValueMeans (program : List AsmLine) (v : AsmValue) (n : Int) : Prop :=
  match v with
  | .num m => n = m
  | .label name => ∃ before after, program = before ++ .label name :: after ∧ n = asmLength before

/-- `w` is the operand word of `o` in `program` (R81): `n`, or `-n` for `[rb-n]`. -/
def OperandMeans (program : List AsmLine) (o : AsmOperand) (w : Word) : Prop :=
  ∃ n, ValueMeans program o.value n ∧ w.toInt = o.signed n

/-- Everything in a line stands for some Word. -/
def LineMeans (program : List AsmLine) : AsmLine → Prop
  | .label _ => True
  | .op _ operands => ∀ o ∈ operands, ∃ w, OperandMeans program o w
  | .words vs => ∀ v ∈ vs, ∃ w : Word, ValueMeans program v w.toInt

/-- The Word a jump loads into `pc` when it is taken (43_jumps.md R120, R121); none for a jump not taken and for every other
instruction. -/
def jumpTarget? (i : Instr) (s : State) : Option Word :=
  match i with
  | .jumpIfTrue p1 p2 =>
    match valueOf p1 s, valueOf p2 s with
    | .ok a, .ok b => if a = 0 then none else some b
    | _, _ => none
  | .jumpIfFalse p1 p2 =>
    match valueOf p1 s, valueOf p2 s with
    | .ok a, .ok b => if a = 0 then some b else none
    | _, _ => none
  | .add _ _ _ => none
  | .mul _ _ _ => none
  | .input _ => none
  | .output _ => none
  | .lessThan _ _ _ => none
  | .equal _ _ _ => none
  | .adjustRelativeBase _ => none
  | .halt => none

/-- `n` moves of the machine with its host. -/
def runSteps : Nat → State → Host.Outcome State Fault Refusal
  | 0, s => .next s
  | n + 1, s =>
    match step s with
    | .next t => runSteps n t
    | .fault r => .fault r
    | .refused r => .refused r

/-- The machine as the host's script and answers left out: what 40_engine.md R102 compares. -/
def State.machine (s : State) : State :=
  { s with pending := [], responses := [] }

end Sys2Proof.Machine
end

