-- ==== Sys2Proof/Certificates/Slice0/Obligations.lean ====
section
/-! DEFINITION. The statements about the Intcode core, each from the rules its docstring names. Post-fault state beyond
FAULT_CODE, FAULT_PC and the log is as 60_exceptions.md R163 says; no claim about the original may rest on it
(93_implementation_defined.md I1, log entry 8). -/

open Sys2Proof Sys2Proof.Machine

/-! ## Reset and LOAD -/

/-- LOAD (49_host_interface.md R140): the machine it creates, the lists it refuses, and that nothing after it is another
reset. -/
def Obligations.LoadConstructsMachine : Prop :=
  (∀ (cfg : Config) (ws : List Int),
    (ws.length ≤ addrMax + 1 → (∀ w ∈ ws, wordMin ≤ w ∧ w ≤ wordMax) →
      ∃ s, load cfg ws = some s ∧ (∀ a : Nat, (s.memRead a).toInt = (ws[a]?).getD 0) ∧ s.ext = ws.length ∧
        s.pc = 0 ∧ s.rb = 0 ∧ s.engine = .idle ∧ s.inQ = [] ∧ s.outLog = [] ∧ s.faultCode = none ∧ s.faultPc = 0) ∧
    (∀ w ∈ ws, ¬(wordMin ≤ w ∧ w ≤ wordMax) → load cfg ws = none) ∧
    (addrMax + 1 < ws.length → load cfg ws = none)) ∧
  (∀ s t : State, step s = .next t → t.engine = .idle → s.engine = .idle)

/-- The model's reset is LOAD of the empty list with the spec's parameters (the model's choice, log entry 7; 70_reset_and_hazards.md
"Reset is LOAD"). -/
def Obligations.ResetIsLoadOfEmptyList : Prop :=
  load Config.spec [] = some State.reset ∧ ∀ a, State.reset.memRead a = 0

/-! ## Encoding and decoding -/

/-- The words of 95_test_vectors.md section 2 and 30_encoding.md section 3, decoded: encoder examples, an excess digit, and
rejected words. Digit 2 is Relative by the spec's own presumption (log entry 10). -/
def Obligations.SpecWordsDecode : Prop :=
  decode false 1 [7, 8, 9] = .ok (.add ⟨7, .pos⟩ ⟨8, .pos⟩ ⟨9, .pos⟩) ∧
  decode false 1002 [4, 3, 4] = .ok (.mul ⟨4, .pos⟩ ⟨3, .imm⟩ ⟨4, .pos⟩) ∧
  decode false 203 [5] = .ok (.input ⟨5, .rel⟩) ∧
  decode false 204 [-2] = .ok (.output ⟨-2, .rel⟩) ∧
  decode false 1105 [1, 7] = .ok (.jumpIfTrue ⟨1, .imm⟩ ⟨7, .imm⟩) ∧
  decode false 1206 [2, 26] = .ok (.jumpIfFalse ⟨2, .rel⟩ ⟨26, .imm⟩) ∧
  decode false 22107 [0, 0, 2] = .ok (.lessThan ⟨0, .imm⟩ ⟨0, .rel⟩ ⟨2, .rel⟩) ∧
  decode false 1008 [100, 16, 101] = .ok (.equal ⟨100, .pos⟩ ⟨16, .imm⟩ ⟨101, .pos⟩) ∧
  decode false 109 [-5] = .ok (.adjustRelativeBase ⟨-5, .imm⟩) ∧
  decode false 99 [] = .ok .halt ∧ decode false 10099 [] = .ok .halt ∧
  decode true 199 [] = .raise (.invalidMode 1 1) ∧ decode false (-1) [] = .raise (.unknownOpcode (-1)) ∧
  decode false 98 [] = .raise (.unknownOpcode 98) ∧ decode false 1301 [0, 0, 0] = .raise (.invalidMode 1 3) ∧
  decode false 301 [0, 0] = .raise (.truncatedInstruction 3)

/-- Decoding what the encoder writes gives the instruction back, for every instruction, operand value and mode, under both
values of STRICT_EXCESS_MODES, whatever follows (30_encoding.md section 3 "Encoder", the "inverse" of the fields of section
1). -/
def Obligations.DecodeOfEncode : Prop :=
  ∀ (i : Instr) (strict : Bool) (rest : List Word),
    ∃ raw operands, encode i = raw :: operands ∧ decode strict raw (operands ++ rest) = .ok i

/-- The words of an instruction are exactly its aliases (30_encoding.md section 3 "Aliases"): `raw` decodes to `i` if and only
if it is the canonical word plus `100 * 10^n * k`, and the operand words come next; under STRICT_EXCESS_MODES only the
canonical word. -/
def Obligations.DecodesExactlyAliases : Prop :=
  ∀ (strict : Bool) (raw : Word) (words : List Word) (i : Instr),
    decode strict raw words = .ok i ↔
      0 ≤ raw.toInt ∧ i.params.map Param.value <+: words ∧
      ∃ k, raw.toNat = encodeNat i + 100 * 10 ^ i.opcode.arity * k ∧ (strict = true → k = 0)

/-- UnknownOpcode (30_encoding.md R70, R71): exactly for a negative word, and for a word whose `raw mod 100` is not in the
table. -/
def Obligations.UnknownOpcodeExactly : Prop :=
  ∀ (strict : Bool) (raw : Word) (words : List Word),
    decode strict raw words = .raise (.unknownOpcode raw) ↔
      raw.toInt < 0 ∨ raw.toInt % 100 ∉ [1, 2, 3, 4, 5, 6, 7, 8, 9, 99]

/-- Mode digits (30_encoding.md R72, R73), for a word of the table with its operand words present: the lowest used position
whose digit is not a mode is reported; excess digits are ignored, or reported under STRICT_EXCESS_MODES; otherwise the word
decodes, each parameter an operand word with the mode of its digit (R69's table; digit 2: log entry 10). -/
def Obligations.ModeDigitsChecked : Prop :=
  ∀ (strict : Bool) (raw : Word) (words : List Word) (op : Opcode),
    0 ≤ raw.toInt → raw.toNat % 100 = op.number → op.arity ≤ words.length →
    (∀ k, k < op.arity → (∀ j, j < k → digit j (raw.toNat / 100) ≤ 2) → 2 < digit k (raw.toNat / 100) →
      decode strict raw words = .raise (.invalidMode (k + 1) (digit k (raw.toNat / 100)))) ∧
    ((∀ j, j < op.arity → digit j (raw.toNat / 100) ≤ 2) →
      (strict = true → raw.toNat / 100 / 10 ^ op.arity ≠ 0 →
        decode strict raw words = .raise (.invalidMode (op.arity + 1) (digit op.arity (raw.toNat / 100)))) ∧
      ((strict = false ∨ raw.toNat / 100 / 10 ^ op.arity = 0) →
        ∃ i, decode strict raw words = .ok i ∧ i.opcode = op ∧
          i.params.map Param.value = words.take op.arity ∧
          ∀ j, j < op.arity → ∃ p, i.params[j]? = some p ∧ p.mode.digit = digit j (raw.toNat / 100)))

/-- TruncatedInstruction (30_encoding.md R74): raised at a word of the table exactly where one of the operand addresses is not
addressable, at or above the extent under EXTENT, above `ADDR_MAX` under both policies; never for Halt. -/
def Obligations.TruncationFollowsPolicy : Prop :=
  ∀ (s : State) (op : Opcode),
    0 ≤ s.pc.toInt → 0 ≤ (s.memRead s.pc.toNat).toInt → (s.memRead s.pc.toNat).toNat % 100 = op.number →
    (fetch s = .raise .truncatedInstruction ↔
      ∃ j, 1 ≤ j ∧ j ≤ op.arity ∧
        (addrMax < s.pc.toNat + j ∨ (s.config.truncation = .extent ∧ s.ext ≤ s.pc.toNat + j)))

/-- A stored encoding is what the next fetch decodes (20_memory.md section 6 "Instruction-fetch coherence", 30_encoding.md R82):
in every state, under every policy, storing the words of `i` at `pc` makes the fetch give `i`. -/
def Obligations.StoredEncodingIsFetched : Prop :=
  ∀ (s : State) (i : Instr), 0 ≤ s.pc.toInt → s.pc.toNat + i.opcode.arity ≤ addrMax →
    fetch (s.storeWords s.pc.toNat (encode i)) = .ok i

/-- Assembling and disassembling (30_encoding.md R82). Assembling: every program with distinct labels, the operand counts of its
opcodes, operands that mean something, numbers after `rb+` and `rb-` that are not negative (log entry 19; `AssemblerChoices` has the
rest) and numbers of the Word range in `.word` assembles; its words are then as many as its lines ask for; an instruction in it, wherever it stands, is its canonical word followed by its operand words in order, `n`, or `-n` for
`[rb-n]`, a label standing for its address; `.word` places its numbers. Disassembling: the canonical word with its operand words
prints as the instruction (`DisassemblerPrintsNotation` says what that text is); a word that is the canonical word of no
instruction, non-canonical or illegal, prints as `.word raw`, whatever follows. -/
def Obligations.AssemblerEmitsCanonicalWords : Prop :=
  (∀ program : List AsmLine,
    (∀ before name after, program = before ++ .label name :: after → AsmLine.label name ∉ before) →
    (∀ vs, .words vs ∈ program → ∀ v ∈ vs, ∃ n, v = .num n) →
    (∀ opc operands, .op opc operands ∈ program → operands.length = opc.arity ∧
      ∀ o ∈ operands, ∀ n, o.mode = .rel → o.value = .num n → 0 ≤ n) →
    (∀ l ∈ program, LineMeans program l) →
      ∃ ws, assemble program = some ws ∧ ws.length = asmLength program ∧
        ∀ before after,
          (∀ opc operands, program = before ++ .op opc operands :: after →
            ws[asmLength before]? = some (BitVec.ofNat 64 (canonicalNat opc (operands.map AsmOperand.mode))) ∧
            ∀ j o, operands[j]? = some o →
              ∃ w, ws[asmLength before + 1 + j]? = some w ∧ OperandMeans program o w) ∧
          (∀ vs, program = before ++ .words vs :: after →
            ∀ j n, vs[j]? = some (.num n) → ∃ w, ws[asmLength before + j]? = some w ∧ w.toInt = n)) ∧
  (∀ (i : Instr) (rest : List Word),
    disassemble (BitVec.ofNat 64 (encodeNat i)) (i.params.map Param.value ++ rest) = i.text) ∧
  (∀ (raw : Word) (words : List Word),
    (∀ i, raw.toNat ≠ encodeNat i) → disassemble raw words = ".word " ++ toString raw.toInt)

/-! ## The step -/

/-- Step (40_engine.md R90), while RUNNING: InvalidPc for a `pc` outside the address space; else the words at `pc` are decoded,
and the step executes the instruction. A raise in the decoder, in ValueOf or AddressOf of any operand, or anywhere else in the
instruction, ends the step by the fault entry. What the step adds is the answer to RUN where the run ends. -/
def Obligations.StepRunsDecodedInstruction : Prop :=
  ∀ s : State, s.engine = .running →
    ((s.pc.toInt < 0 ∨ addrMax < s.pc.toInt) → step s = .next (endOfStep (takeFault .invalidPc s))) ∧
    (0 ≤ s.pc.toInt →
      (∀ f, decode s.config.strictExcessModes (s.memRead s.pc.toNat) (s.operandWords s.pc.toNat) = .raise f →
        step s = .next (endOfStep (takeFault (faultOfDecode f) s))) ∧
      (∀ i, decode s.config.strictExcessModes (s.memRead s.pc.toNat) (s.operandWords s.pc.toNat) = .ok i →
        step s = finish (exec i s) ∧
        (∀ p f, p ∈ i.sources → valueOf p s = .raise f → step s = .next (endOfStep (takeFault f s))) ∧
        (∀ p f, i.destination = some p → addressOf p s = .raise f → step s = .next (endOfStep (takeFault f s))) ∧
        (∀ t, exec i s = .next t → t.engine = .faulted →
          ∃ f, t = takeFault f s ∧ step s = .next (endOfStep (takeFault f s)))))

/-- Every instruction, and every step, answers a next state: a fault of the spec is taken, and nothing is refused
(60_exceptions.md section 1: the table of causes is complete and each has the fault entry; the empty type of stops is the
model's choice, log entry 11). -/
def Obligations.EveryStepAnswersNextState : Prop :=
  (∀ (i : Instr) (s : State), ∃ t, exec i s = .next t) ∧ ∀ s : State, ∃ t, step s = .next t

/-- The transitions of the engine state (40_engine.md R101), every row of its table. -/
def Obligations.EngineTransitions : Prop :=
  (∀ cfg ws s, load cfg ws = some s → s.engine = .idle) ∧
  ∀ s t : State, step s = .next t →
    (s.engine = .idle ∨ s.engine = .suspended →
      t.engine = if s.pending.head? = some .run then .running else s.engine) ∧
    (s.engine = .halted ∨ s.engine = .faulted → t.engine = s.engine) ∧
    (s.engine = .running →
      (t.engine = .suspended ↔ ∃ p c, fetch s = .ok (.input p) ∧ addressOf p s = .ok c ∧ s.inQ = []) ∧
      (t.engine = .halted ↔ fetch s = .ok .halt ∧ s.pc.toInt + 1 ≤ wordMax) ∧
      (t.engine = .faulted ↔ (∃ f, fetch s = .raise f) ∨
        ∃ i f, fetch s = .ok i ∧ exec i s = .next (takeFault f s)) ∧
      t.engine ≠ .idle)

/-- The fault entry and its delivery (60_exceptions.md R163, R164): a step that faults writes the engine state, FAULT_CODE, the
code of the fault that the fetch raised or the instruction took, and FAULT_PC; it ends the run with the answer
FAULT(FAULT_CODE, FAULT_PC), and changes nothing else. -/
def Obligations.FaultEntryIsPrecise : Prop :=
  ∀ s t : State, s.engine = .running → step s = .next t → t.engine = .faulted →
    ∃ f, (fetch s = .raise f ∨ ∃ i, fetch s = .ok i ∧ exec i s = .next (takeFault f s)) ∧
      t = { s with
        engine := .faulted, faultCode := some f, faultPc := s.pc,
        responses := s.responses ++ [.runFault f.code s.pc] }

/-- Where each fault is raised (60_exceptions.md section 1, the column "raised by"): the fetch raises only codes 1, 2, 4 and 6,
and an instruction only InvalidOperand, which needs an operand, Overflow, and ResourceExhausted, which needs a
destination. -/
def Obligations.FaultsRaisedWhereListed : Prop :=
  (∀ s f, fetch s = .raise f →
    f = .unknownOpcode ∨ f = .truncatedInstruction ∨ f = .invalidMode ∨ f = .invalidPc) ∧
  (∀ i s f, s.engine ≠ .faulted → exec i s = .next (takeFault f s) →
    (f = .invalidOperand ∧ i.params ≠ []) ∨ f = .overflow ∨ (f = .resourceExhausted ∧ i.destination ≠ none))

/-- The pc (40_engine.md R93): a step that faults or suspends leaves it, a taken jump loads its target, and every other
instruction, Halt included, advances it by its arity plus one. -/
def Obligations.PcFollowsDefaultAdvance : Prop :=
  ∀ s t : State, s.engine = .running → step s = .next t →
    (t.engine = .faulted ∨ t.engine = .suspended → t.pc = s.pc) ∧
    (t.engine = .running ∨ t.engine = .halted →
      ∃ i, fetch s = .ok i ∧ (∀ b, jumpTarget? i s = some b → t.pc = b) ∧
        (jumpTarget? i s = none → t.pc.toInt = s.pc.toInt + i.opcode.arity + 1))

/-- An endless run is a behaviour of the core (40_engine.md "Non-termination", 43_jumps.md: `b == pc0` makes a one-instruction
loop): `jt #1, #pc` goes on for ever, with no change of state. -/
def Obligations.EndlessRunIsAdmitted : Prop :=
  ∀ s : State, s.engine = .running → fetch s = .ok (.jumpIfTrue ⟨1, .imm⟩ ⟨s.pc, .imm⟩) →
    ∀ n, runSteps n s = .next s

/-! ## Memory and the resolver -/

/-- MemWrite and MemRead (20_memory.md R42): the cell written, every other cell, and the extent, for a write of 0 as well. -/
def Obligations.MemWriteStoresAndExtends : Prop :=
  ∀ (s : State) (a : Nat) (v : Word), a ≤ addrMax →
    (s.memWrite a v).memRead a = v ∧ (∀ b, b ≠ a → (s.memWrite a v).memRead b = s.memRead b) ∧
    (s.memWrite a v).ext = max s.ext (a + 1) ∧
    s.memWrite a v = { s with mem := (s.memWrite a v).mem, ext := (s.memWrite a v).ext }

/-- The canonical form is canonical (the model's representation, log entry 1; 20_memory.md section 1, "Either must give the
results"): two memories in it that read alike are equal. -/
def Obligations.CanonicalMemoryIsDetermined : Prop :=
  ∀ m n : Memory, m.wf → n.wf → (∀ a, m.read a = n.read a) → m = n

/-- ValueOf (20_memory.md R52), in each mode, at each side of its range. -/
def Obligations.ValueOfFollowsMode : Prop :=
  ∀ (v : Word) (s : State),
    valueOf ⟨v, .imm⟩ s = .ok v ∧
    (v.toInt < 0 → valueOf ⟨v, .pos⟩ s = .raise .invalidOperand) ∧
    (0 ≤ v.toInt → valueOf ⟨v, .pos⟩ s = .ok (s.memRead v.toInt.toNat)) ∧
    (v.toInt + s.rb.toInt < 0 ∨ addrMax < v.toInt + s.rb.toInt → valueOf ⟨v, .rel⟩ s = .raise .invalidOperand) ∧
    (0 ≤ v.toInt + s.rb.toInt → v.toInt + s.rb.toInt ≤ addrMax →
      valueOf ⟨v, .rel⟩ s = .ok (s.memRead (v.toInt + s.rb.toInt).toNat))

/-- AddressOf (20_memory.md R53), in each mode, at each side of its range. -/
def Obligations.AddressOfFollowsMode : Prop :=
  ∀ (v : Word) (s : State),
    addressOf ⟨v, .imm⟩ s = .raise .invalidOperand ∧
    (v.toInt < 0 → addressOf ⟨v, .pos⟩ s = .raise .invalidOperand) ∧
    (0 ≤ v.toInt → addressOf ⟨v, .pos⟩ s = .ok v.toInt.toNat) ∧
    (v.toInt + s.rb.toInt < 0 ∨ addrMax < v.toInt + s.rb.toInt → addressOf ⟨v, .rel⟩ s = .raise .invalidOperand) ∧
    (0 ≤ v.toInt + s.rb.toInt → v.toInt + s.rb.toInt ≤ addrMax →
      addressOf ⟨v, .rel⟩ s = .ok (v.toInt + s.rb.toInt).toNat)

/-- A step makes at most one store, at the resolved destination of its instruction, inside the address space; every other
address reads as before, and the extent follows the store (20_memory.md section 5, 10_state.md section 3). -/
def Obligations.AtMostOneStorePerStep : Prop :=
  ∀ s t : State, step s = .next t →
    (t.mem = s.mem ∧ t.ext = s.ext) ∨
    (s.engine = .running ∧ ∃ i p c, fetch s = .ok i ∧ i.destination = some p ∧ addressOf p s = .ok c ∧ c ≤ addrMax ∧
      (∀ a, a ≠ c → t.memRead a = s.memRead a) ∧ t.ext = max s.ext (c + 1))

/-- The capacity check stands before every store (20_memory.md section 1 "Capacity"): a step that changed a cell had the
address admitted, and an instruction whose destination is not admitted changes no cell. -/
def Obligations.StoresAreAdmitted : Prop :=
  (∀ s t : State, step s = .next t → ∀ a, t.memRead a ≠ s.memRead a → s.memAdmits a = true) ∧
  (∀ i s t p c, i.destination = some p → addressOf p s = .ok c → s.memAdmits c = false → exec i s = .next t →
    t.mem = s.mem ∧ t.ext = s.ext)

/-! ## The instructions -/

/-- Add (41_arithmetic.md R110). -/
def Obligations.AddStoresExactSum : Prop :=
  (∀ (p1 p2 p3 : Param) (s : State) (a b : Word) (c : Nat),
    valueOf p1 s = .ok a → valueOf p2 s = .ok b → addressOf p3 s = .ok c →
    (wordMin ≤ a.toInt + b.toInt → a.toInt + b.toInt ≤ wordMax →
      StoresOrFaults (exec (.add p1 p2 p3) s) s c (a.toInt + b.toInt)) ∧
    (a.toInt + b.toInt < wordMin ∨ wordMax < a.toInt + b.toInt →
      FaultsWith (exec (.add p1 p2 p3) s) s .overflow)) ∧
  OperandFaults .add ∧ ∀ p1 p2 p3, EncodedAs 1 (.add p1 p2 p3)

/-- Multiply (41_arithmetic.md R111). -/
def Obligations.MulStoresExactProduct : Prop :=
  (∀ (p1 p2 p3 : Param) (s : State) (a b : Word) (c : Nat),
    valueOf p1 s = .ok a → valueOf p2 s = .ok b → addressOf p3 s = .ok c →
    (wordMin ≤ a.toInt * b.toInt → a.toInt * b.toInt ≤ wordMax →
      StoresOrFaults (exec (.mul p1 p2 p3) s) s c (a.toInt * b.toInt)) ∧
    (a.toInt * b.toInt < wordMin ∨ wordMax < a.toInt * b.toInt →
      FaultsWith (exec (.mul p1 p2 p3) s) s .overflow)) ∧
  OperandFaults .mul ∧ ∀ p1 p2 p3, EncodedAs 2 (.mul p1 p2 p3)

/-- LessThan (44_compare.md R125): signed, 1 or 0. -/
def Obligations.LessThanStoresComparison : Prop :=
  (∀ (p1 p2 p3 : Param) (s : State) (a b : Word) (c : Nat),
    valueOf p1 s = .ok a → valueOf p2 s = .ok b → addressOf p3 s = .ok c →
    StoresOrFaults (exec (.lessThan p1 p2 p3) s) s c (if a.toInt < b.toInt then 1 else 0)) ∧
  OperandFaults .lessThan ∧ ∀ p1 p2 p3, EncodedAs 7 (.lessThan p1 p2 p3)

/-- Equal (44_compare.md R126): equality of Word values, 1 or 0. -/
def Obligations.EqualStoresComparison : Prop :=
  (∀ (p1 p2 p3 : Param) (s : State) (a b : Word) (c : Nat),
    valueOf p1 s = .ok a → valueOf p2 s = .ok b → addressOf p3 s = .ok c →
    StoresOrFaults (exec (.equal p1 p2 p3) s) s c (if a = b then 1 else 0)) ∧
  OperandFaults .equal ∧ ∀ p1 p2 p3, EncodedAs 8 (.equal p1 p2 p3)

/-- Input (42_io.md R115): the destination first; an empty queue suspends with no other change; otherwise the head is popped
and stored, or a fault leaves the queue as it was. -/
def Obligations.InputConsumesOrSuspends : Prop :=
  (∀ (p1 : Param) (s : State),
    (addressOf p1 s = .raise .invalidOperand → FaultsWith (exec (.input p1) s) s .invalidOperand) ∧
    (∀ c, addressOf p1 s = .ok c →
      (s.inQ = [] → exec (.input p1) s = .next { s with engine := .suspended }) ∧
      (∀ v rest, s.inQ = v :: rest →
        (s.pc.toInt + 2 ≤ wordMax → s.memAdmits c = true →
          ∃ t, exec (.input p1) s = .next t ∧ StoredResult { s with inQ := rest } t c v.toInt 2) ∧
        (wordMax < s.pc.toInt + 2 → FaultsWith (exec (.input p1) s) s .overflow) ∧
        (s.pc.toInt + 2 ≤ wordMax → s.memAdmits c = false →
          FaultsWith (exec (.input p1) s) s .resourceExhausted)))) ∧
  ∀ p1, EncodedAs 3 (.input p1)

/-- Output (42_io.md R116): the value is appended, and nothing but the log and the pc changes. -/
def Obligations.OutputAppendsValue : Prop :=
  (∀ (p1 : Param) (s : State),
    (valueOf p1 s = .raise .invalidOperand → FaultsWith (exec (.output p1) s) s .invalidOperand) ∧
    (∀ a, valueOf p1 s = .ok a →
      (s.pc.toInt + 2 ≤ wordMax →
        ∃ t, exec (.output p1) s = .next t ∧ t.pc.toInt = s.pc.toInt + 2 ∧
          t = { s with outLog := s.outLog ++ [a], pc := t.pc }) ∧
      (wordMax < s.pc.toInt + 2 → FaultsWith (exec (.output p1) s) s .overflow))) ∧
  ∀ p1, EncodedAs 4 (.output p1)

/-- JumpIfTrue (43_jumps.md R120): both operands are resolved, taken or not; only the pc changes. -/
def Obligations.JumpIfTrueLoadsPc : Prop :=
  (∀ (p1 p2 : Param) (s : State),
    (valueOf p1 s = .raise .invalidOperand → FaultsWith (exec (.jumpIfTrue p1 p2) s) s .invalidOperand) ∧
    (∀ a, valueOf p1 s = .ok a →
      (valueOf p2 s = .raise .invalidOperand → FaultsWith (exec (.jumpIfTrue p1 p2) s) s .invalidOperand) ∧
      (∀ b, valueOf p2 s = .ok b →
        (a ≠ 0 → exec (.jumpIfTrue p1 p2) s = .next { s with pc := b }) ∧
        (a = 0 → s.pc.toInt + 3 ≤ wordMax →
          ∃ t, exec (.jumpIfTrue p1 p2) s = .next t ∧ t.pc.toInt = s.pc.toInt + 3 ∧ t = { s with pc := t.pc }) ∧
        (a = 0 → wordMax < s.pc.toInt + 3 → FaultsWith (exec (.jumpIfTrue p1 p2) s) s .overflow)))) ∧
  ∀ p1 p2, EncodedAs 5 (.jumpIfTrue p1 p2)

/-- JumpIfFalse (43_jumps.md R121): only the value 0 takes the jump. -/
def Obligations.JumpIfFalseLoadsPc : Prop :=
  (∀ (p1 p2 : Param) (s : State),
    (valueOf p1 s = .raise .invalidOperand → FaultsWith (exec (.jumpIfFalse p1 p2) s) s .invalidOperand) ∧
    (∀ a, valueOf p1 s = .ok a →
      (valueOf p2 s = .raise .invalidOperand → FaultsWith (exec (.jumpIfFalse p1 p2) s) s .invalidOperand) ∧
      (∀ b, valueOf p2 s = .ok b →
        (a = 0 → exec (.jumpIfFalse p1 p2) s = .next { s with pc := b }) ∧
        (a ≠ 0 → s.pc.toInt + 3 ≤ wordMax →
          ∃ t, exec (.jumpIfFalse p1 p2) s = .next t ∧ t.pc.toInt = s.pc.toInt + 3 ∧ t = { s with pc := t.pc }) ∧
        (a ≠ 0 → wordMax < s.pc.toInt + 3 → FaultsWith (exec (.jumpIfFalse p1 p2) s) s .overflow)))) ∧
  ∀ p1 p2, EncodedAs 6 (.jumpIfFalse p1 p2)

/-- AdjustRelativeBase (45_relative_base.md R130): the exact sum with the old base, negative or not; only `rb` and the pc
change. -/
def Obligations.AdjustRelativeBaseAddsValue : Prop :=
  (∀ (p1 : Param) (s : State),
    (valueOf p1 s = .raise .invalidOperand → FaultsWith (exec (.adjustRelativeBase p1) s) s .invalidOperand) ∧
    (∀ a, valueOf p1 s = .ok a →
      (wordMin ≤ s.rb.toInt + a.toInt → s.rb.toInt + a.toInt ≤ wordMax →
        (s.pc.toInt + 2 ≤ wordMax →
          ∃ t, exec (.adjustRelativeBase p1) s = .next t ∧ t.rb.toInt = s.rb.toInt + a.toInt ∧
            t.pc.toInt = s.pc.toInt + 2 ∧ t = { s with rb := t.rb, pc := t.pc }) ∧
        (wordMax < s.pc.toInt + 2 → FaultsWith (exec (.adjustRelativeBase p1) s) s .overflow)) ∧
      (s.rb.toInt + a.toInt < wordMin ∨ wordMax < s.rb.toInt + a.toInt →
        FaultsWith (exec (.adjustRelativeBase p1) s) s .overflow))) ∧
  ∀ p1, EncodedAs 9 (.adjustRelativeBase p1)

/-- Halt (46_halt.md R135): HALTED, the default advance (no claim about the original may rest on the pc, log entry 9), and
nothing else; no later step executes an instruction. -/
def Obligations.HaltEndsTheRun : Prop :=
  (∀ s : State,
    (s.pc.toInt + 1 ≤ wordMax →
      ∃ t, exec .halt s = .next t ∧ t.pc.toInt = s.pc.toInt + 1 ∧ t = { s with engine := .halted, pc := t.pc }) ∧
    (wordMax < s.pc.toInt + 1 → FaultsWith (exec .halt s) s .overflow) ∧
    (s.engine = .halted → step s = .next (hostMove s) ∧ (hostMove s).engine = .halted)) ∧
  EncodedAs 99 .halt ∧
  ∀ (raw : Word) (words : List Word), 0 ≤ raw.toInt → raw.toNat % 100 = 99 → decode false raw words = .ok .halt

/-- An instruction with an Immediate destination decodes, and faults InvalidOperand whenever it executes (30_encoding.md section
2 "Immediate mode on a destination"): the first operand that fails is reported with the same code. -/
def Obligations.ImmediateDestinationFaults : Prop :=
  ∀ (i : Instr) (s : State), i.wellFormed = false → FaultsWith (exec i s) s .invalidOperand

/-! ## Queue, log and relative base -/

/-- The input queue (10_state.md R26): an Input that completes removes the head, which it stores, and no other step of a run
changes the queue; between runs FEED appends at the tail, in every engine state, and no other move changes it. -/
def Obligations.InputQueueIsFifo : Prop :=
  ∀ s t : State, step s = .next t →
    (s.engine = .running →
      (∀ p, fetch s = .ok (.input p) → t.engine = .running →
        ∃ c v, addressOf p s = .ok c ∧ s.inQ = v :: t.inQ ∧ t.memRead c = v) ∧
      ((∀ p, fetch s ≠ .ok (.input p)) ∨ t.engine ≠ .running → t.inQ = s.inQ)) ∧
    (s.engine ≠ .running →
      (∀ w, s.pending.head? = some (.feed w) → t.inQ = s.inQ ++ [w]) ∧
      ((∀ w, s.pending.head? ≠ some (.feed w)) → t.inQ = s.inQ))

/-- The output log (10_state.md R27): an Output that completes appends its operand's value, and no other step and no host's
move changes the log, a fault included; OUTPUT answers the whole of it. -/
def Obligations.OutputLogIsAppendOnly : Prop :=
  ∀ s t : State, step s = .next t →
    (∀ p, s.engine = .running → fetch s = .ok (.output p) → t.engine = .running →
      ∃ a, valueOf p s = .ok a ∧ t.outLog = s.outLog ++ [a]) ∧
    (s.engine ≠ .running ∨ (∀ p, fetch s ≠ .ok (.output p)) ∨ t.engine ≠ .running → t.outLog = s.outLog) ∧
    (s.engine ≠ .running → s.pending.head? = some .output → t.responses = s.responses ++ [.output s.outLog])

/-- The relative base (10_state.md section 1, "Relative base changes only via the adjust-relative-base instruction"): no step
changes it but a completed AdjustRelativeBase. -/
def Obligations.RelativeBaseOnlyByAdjust : Prop :=
  ∀ s t : State, step s = .next t → t.rb ≠ s.rb →
    s.engine = .running ∧ ∃ p a, fetch s = .ok (.adjustRelativeBase p) ∧ valueOf p s = .ok a ∧
      t.rb.toInt = s.rb.toInt + a.toInt

/-! ## The host port -/

/-- The host's access between runs (49_host_interface.md R148): it writes no memory, extent, pc, relative base, log, fault
register or parameter; the engine state, and STATUS with it, changes by RUN alone; and what it gets does not depend on `pc` or
`rb`. -/
def Obligations.HostHasNoOtherAccess : Prop :=
  ∀ s t : State, s.engine ≠ .running → step s = .next t →
    t = { s with inQ := t.inQ, engine := t.engine, pending := t.pending, responses := t.responses } ∧
    (t.status ≠ s.status → s.pending.head? = some .run) ∧
    ∀ pc rb, step { s with pc := pc, rb := rb } = .next { t with pc := pc, rb := rb }

/-- FEED (49_host_interface.md R142): in every state between runs it appends to the queue, and changes nothing else. -/
def Obligations.FeedAppends : Prop :=
  ∀ (s : State) (w : Word) (rest : List HostCommand), s.engine ≠ .running → s.pending = .feed w :: rest →
    step s = .next { s with inQ := s.inQ ++ [w], pending := rest }

/-- RUN on a machine that is HALTED or FAULTED (40_engine.md section 2, the first two lines of `run()`): it answers the same
again, changes no machine state, and takes no step. -/
def Obligations.RunOnEndedMachineAnswersAgain : Prop :=
  ∀ (s : State) (rest : List HostCommand), s.pending = .run :: rest →
    (s.engine = .faulted →
      step s = .next { s with
        pending := rest, responses := s.responses ++ [.runFault s.faultNumber s.faultPc] }) ∧
    (s.engine = .halted → step s = .next { s with pending := rest, responses := s.responses ++ [.runHalted] })

/-- RUN from IDLE or SUSPENDED (40_engine.md R98) enters RUNNING; with the Input at `pc` and still no input it suspends again
at once, with no other change. -/
def Obligations.RunWithoutInputSuspendsAgain : Prop :=
  ∀ (s : State) (rest : List HostCommand), s.engine = .idle ∨ s.engine = .suspended → s.pending = .run :: rest →
    step s = .next { s with engine := .running, pending := rest } ∧
    (∀ p c, s.engine = .suspended → fetch s = .ok (.input p) → addressOf p s = .ok c → s.inQ = [] →
      runSteps 2 s = .next { s with pending := rest, responses := s.responses ++ [.runSuspended] })

/-- The end of a run (49_host_interface.md section 1, RUN and "Atomicity and exclusion"): the step that leaves RUNNING gives
RUN its answer, no other instruction answers, and the host makes no move meanwhile. -/
def Obligations.RunAnswersAtItsEnd : Prop :=
  ∀ s t : State, s.engine = .running → step s = .next t →
    t.pending = s.pending ∧
    (t.engine = .running → t.responses = s.responses) ∧
    (t.engine = .suspended → t.responses = s.responses ++ [.runSuspended]) ∧
    (t.engine = .halted → t.responses = s.responses ++ [.runHalted]) ∧
    (t.engine = .faulted → t.responses = s.responses ++ [.runFault t.faultNumber t.faultPc])

/-- OUTPUT, IS_HALTED, IS_SUSPENDED and STATUS_READ (49_host_interface.md section 1): each answers what it reads, and changes no
machine state. -/
def Obligations.ReadingTransactionsAnswer : Prop :=
  ∀ (s : State) (rest : List HostCommand), s.engine ≠ .running →
    (s.pending = .output :: rest →
      step s = .next { s with pending := rest, responses := s.responses ++ [.output s.outLog] }) ∧
    (s.pending = .isHalted :: rest →
      step s = .next { s with
        pending := rest, responses := s.responses ++ [.isHalted (decide (s.engine = .halted))] }) ∧
    (s.pending = .isSuspended :: rest →
      step s = .next { s with
        pending := rest, responses := s.responses ++ [.isSuspended (decide (s.engine = .suspended))] }) ∧
    (s.pending = .statusRead :: rest →
      step s = .next { s with pending := rest, responses := s.responses ++ [.status s.status s.faultPc] })

/-- PEEK (49_host_interface.md R145): value and in-range flag inside the address space, PEEK_INVALID outside, no change of the
machine. -/
def Obligations.PeekAnswers : Prop :=
  ∀ (s : State) (addr : Int) (rest : List HostCommand), s.engine ≠ .running → s.pending = .peek addr :: rest →
    (0 ≤ addr → addr ≤ addrMax →
      step s = .next { s with
        pending := rest,
        responses := s.responses ++ [.peek (s.memRead addr.toNat) (decide (addr < s.ext))] }) ∧
    (addr < 0 ∨ addrMax < addr →
      step s = .next { s with pending := rest, responses := s.responses ++ [.peekInvalid] })

/-- The STATUS word (10_state.md section 2): the four state bits, FAULT_CODE in bits 7 to 4 with the codes of 60_exceptions.md
section 1, 0 elsewhere, at most one state bit set, and none exactly in IDLE. -/
def Obligations.StatusWordLayout : Prop :=
  ∀ s : State,
    s.status.getLsbD 0 = decide (s.engine = .halted) ∧ s.status.getLsbD 1 = decide (s.engine = .suspended) ∧
    s.status.getLsbD 2 = decide (s.engine = .faulted) ∧ s.status.getLsbD 3 = decide (s.engine = .running) ∧
    (s.status.toNat % 16 = 0 ↔ s.engine = .idle) ∧
    (∀ k, 8 ≤ k → s.status.getLsbD k = false) ∧
    s.status.toNat / 16 % 16 =
      match s.faultCode with
      | none => 0
      | some .unknownOpcode => 1
      | some .truncatedInstruction => 2
      | some .invalidOperand => 3
      | some .invalidMode => 4
      | some .overflow => 5
      | some .invalidPc => 6
      | some .resourceExhausted => 7

/-- The parameters are those that LOAD was given, and no step changes them (49_host_interface.md "Configuration"; that they stand
in State is the model's choice, log entry 4). -/
def Obligations.ParametersNeverChange : Prop :=
  (∀ cfg ws s, load cfg ws = some s → s.config = cfg) ∧
  ∀ s t : State, step s = .next t → t.config = s.config

/-! ## Suspension, independence and the invariant -/

/-- Suspend and resume (40_engine.md section 4 "Suspend/resume equivalence"): from a state about to execute an Input with an
empty queue, suspending, being fed and being run again reaches what a run with the same input already queued reaches, after
any number of further steps, the script and the answers apart. -/
def Obligations.SuspendResumeEqualsQueuedInput : Prop :=
  ∀ (s : State) (p : Param) (c : Nat) (vs : List Word) (n : Nat),
    s.engine = .running → fetch s = .ok (.input p) → addressOf p s = .ok c → s.inQ = [] →
    ∃ t u, runSteps n { s with inQ := vs, pending := [] } = .next t ∧
      runSteps (vs.length + 2 + n) { s with pending := vs.map .feed ++ [.run] } = .next u ∧ t.machine = u.machine

/-- Input still to come does not matter before it is read (40_engine.md section 4): a running step that does not suspend does
the same with more words at the tail of the queue. -/
def Obligations.QueueTailDoesNotMatter : Prop :=
  ∀ (s t : State) (q : List Word), s.engine = .running → step s = .next t → t.engine ≠ .suspended →
    step { s with inQ := s.inQ ++ q } = .next { t with inQ := t.inQ ++ q }

/-- A running step depends on the machine alone (40_engine.md section 4 "Determinism", 49_host_interface.md "Atomicity and
exclusion"): two states that differ only in the host's script and answers step alike. -/
def Obligations.RunningStepIgnoresHost : Prop :=
  ∀ s s' t : State, s.machine = s'.machine → s.engine = .running → step s = .next t →
    ∃ t', step s' = .next t' ∧ t'.machine = t.machine

/-- The invariant holds at reset (10_state.md section 6). That memory has a canonical form is the model's choice (log entry 1), and
so is State.reset as LOAD of the empty list (log entry 7). -/
def Obligations.InvariantAtReset : Prop :=
  State.reset.Inv

/-- The invariant holds in every machine that LOAD constructs (49_host_interface.md section 1, 10_state.md section 3). Its clause
that memory has the canonical form is the model's choice (log entry 1). -/
def Obligations.InvariantAfterLoad : Prop :=
  ∀ cfg ws s, load cfg ws = some s → s.Inv

/-- Every step keeps the invariant: every cell inside the extent, the extent inside the address space, and the fault registers
written exactly in FAULTED (10_state.md sections 3 and 4, 60_exceptions.md section 1); and memory in its canonical form, a
clause that is the model's choice (log entry 1). -/
def Obligations.StepKeepsInvariant : Prop :=
  ∀ s t : State, s.Inv → step s = .next t → t.Inv

/-! ## The notation -/

/-- What the disassembler prints for a canonical word (30_encoding.md section 4): the mnemonic and the operands of each
instruction, `hlt` alone, and the three operand forms. One blank after the mnemonic and after a comma is the model's choice (log
entry 20). -/
def Obligations.DisassemblerPrintsNotation : Prop :=
  (∀ v : Word,
    Param.text ⟨v, .pos⟩ = "[" ++ toString v.toInt ++ "]" ∧ Param.text ⟨v, .imm⟩ = "#" ++ toString v.toInt ∧
    (0 ≤ v.toInt → Param.text ⟨v, .rel⟩ = "[rb+" ++ toString v.toInt ++ "]") ∧
    (v.toInt < 0 → Param.text ⟨v, .rel⟩ = "[rb-" ++ toString (-v.toInt) ++ "]")) ∧
  (∀ (p1 p2 p3 : Param) (rest : List Word),
    let d3 := fun i => disassemble (BitVec.ofNat 64 (encodeNat i)) (p1.value :: p2.value :: p3.value :: rest)
    let d2 := fun i => disassemble (BitVec.ofNat 64 (encodeNat i)) (p1.value :: p2.value :: rest)
    let d1 := fun i => disassemble (BitVec.ofNat 64 (encodeNat i)) (p1.value :: rest)
    d3 (.add p1 p2 p3) = "add " ++ p1.text ++ ", " ++ p2.text ++ ", " ++ p3.text ∧
    d3 (.mul p1 p2 p3) = "mul " ++ p1.text ++ ", " ++ p2.text ++ ", " ++ p3.text ∧
    d1 (.input p1) = "in " ++ p1.text ∧
    d1 (.output p1) = "out " ++ p1.text ∧
    d2 (.jumpIfTrue p1 p2) = "jt " ++ p1.text ++ ", " ++ p2.text ∧
    d2 (.jumpIfFalse p1 p2) = "jf " ++ p1.text ++ ", " ++ p2.text ∧
    d3 (.lessThan p1 p2 p3) = "lt " ++ p1.text ++ ", " ++ p2.text ++ ", " ++ p3.text ∧
    d3 (.equal p1 p2 p3) = "eq " ++ p1.text ++ ", " ++ p2.text ++ ", " ++ p3.text ∧
    d1 (.adjustRelativeBase p1) = "arb " ++ p1.text) ∧
  ∀ rest : List Word, disassemble (BitVec.ofNat 64 (encodeNat .halt)) rest = "hlt"

/-- What the assembler and the disassembler do where 30_encoding.md section 4 is silent, the model's choices of log entries 19, 21
and 22: labels may be defined twice and may stand in `.word`, numbers in `[rb+n]` and `[rb-n]` may be negative, and such programs
assemble; whatever assembles has operands that fit and values that mean something, and its words are those of its lines; a label
defined twice stands for its first definition; a program with an undefined label, a word outside the Word range or a wrong number
of operands is refused; a canonical word with too few operand words after it prints as `.word raw`. -/
def Obligations.AssemblerChoices : Prop :=
  (∀ program : List AsmLine,
    (∀ opc operands, .op opc operands ∈ program → operands.length = opc.arity) →
    (∀ l ∈ program, LineMeans program l) →
      ∃ ws, assemble program = some ws) ∧
  (∀ (program : List AsmLine) (ws : List Word), assemble program = some ws → ws.length = asmLength program ∧
    ∀ before after,
      (∀ opc operands, program = before ++ .op opc operands :: after →
        operands.length = opc.arity ∧
        ws[asmLength before]? = some (BitVec.ofNat 64 (canonicalNat opc (operands.map AsmOperand.mode))) ∧
        ∀ j o, operands[j]? = some o →
          ∃ w, ws[asmLength before + 1 + j]? = some w ∧ OperandMeans program o w) ∧
      (∀ vs, program = before ++ .words vs :: after →
        ∀ j v, vs[j]? = some v → ∃ w, ws[asmLength before + j]? = some w ∧ ValueMeans program v w.toInt)) ∧
  (∀ (program before after : List AsmLine) (name : String) (ws : List Word),
    assemble program = some ws → program = before ++ .label name :: after → AsmLine.label name ∉ before →
    ∀ pre post j,
      (∀ vs, program = pre ++ .words vs :: post → vs[j]? = some (.label name) →
        ∃ w, ws[asmLength pre + j]? = some w ∧ w.toInt = asmLength before) ∧
      (∀ opc operands o, program = pre ++ .op opc operands :: post → operands[j]? = some o → o.value = .label name →
        ∃ w, ws[asmLength pre + 1 + j]? = some w ∧ w.toInt = o.signed (asmLength before))) ∧
  (∀ (program : List AsmLine) (l : AsmLine), l ∈ program → ¬LineMeans program l → assemble program = none) ∧
  (∀ (program : List AsmLine) (opc : Opcode) (operands : List AsmOperand),
    .op opc operands ∈ program → operands.length ≠ opc.arity → assemble program = none) ∧
  (∀ (i : Instr) (words : List Word), words.length < i.opcode.arity →
    disassemble (BitVec.ofNat 64 (encodeNat i)) words = ".word " ++ toString (encodeNat i))

/-! ## The extent -/

/-- A program observes the extent only through TruncatedInstruction (10_state.md section 3): two running states that differ only
in the extent fetch the same, unless one of them fetches TruncatedInstruction, and then step to states that differ only in the
extent. Capacity does not see it, whatever the capacity parameter. -/
def Obligations.ExtentObservedOnlyByTruncation : Prop :=
  ∀ (s t : State) (e : Nat), s.engine = .running → step s = .next t →
    fetch s ≠ .raise .truncatedInstruction → fetch { s with ext := e } ≠ .raise .truncatedInstruction →
    fetch { s with ext := e } = fetch s ∧ ∃ e', step { s with ext := e } = .next { t with ext := e' }
end

