-- ==== Sys2Proof/Laws/State.lean ====
section
/-! SUPPORT. One lemma per field per update of the state, true by rfl, so that no proof unfolds a record update. -/

namespace Sys2Proof.Laws

open Sys2Proof.Machine

variable (s : State) (a : Nat) (v : Word) (f : FaultKind) (rs : List HostResponse)

/-! MemWrite (20_memory.md R42) changes `mem` and `ext` only. -/

@[simp] theorem memWrite_mem : (s.memWrite a v).mem = s.mem.write a v := rfl
@[simp] theorem memWrite_ext : (s.memWrite a v).ext = max s.ext (a + 1) := rfl
@[simp] theorem memWrite_pc : (s.memWrite a v).pc = s.pc := rfl
@[simp] theorem memWrite_rb : (s.memWrite a v).rb = s.rb := rfl
@[simp] theorem memWrite_engine : (s.memWrite a v).engine = s.engine := rfl
@[simp] theorem memWrite_inQ : (s.memWrite a v).inQ = s.inQ := rfl
@[simp] theorem memWrite_outLog : (s.memWrite a v).outLog = s.outLog := rfl
@[simp] theorem memWrite_faultCode : (s.memWrite a v).faultCode = s.faultCode := rfl
@[simp] theorem memWrite_faultPc : (s.memWrite a v).faultPc = s.faultPc := rfl
@[simp] theorem memWrite_config : (s.memWrite a v).config = s.config := rfl
@[simp] theorem memWrite_pending : (s.memWrite a v).pending = s.pending := rfl
@[simp] theorem memWrite_responses : (s.memWrite a v).responses = s.responses := rfl

/-! Fault entry (60_exceptions.md R163) changes `engine`, `faultCode` and `faultPc` only. -/

@[simp] theorem takeFault_mem : (takeFault f s).mem = s.mem := rfl
@[simp] theorem takeFault_ext : (takeFault f s).ext = s.ext := rfl
@[simp] theorem takeFault_pc : (takeFault f s).pc = s.pc := rfl
@[simp] theorem takeFault_rb : (takeFault f s).rb = s.rb := rfl
@[simp] theorem takeFault_engine : (takeFault f s).engine = .faulted := rfl
@[simp] theorem takeFault_inQ : (takeFault f s).inQ = s.inQ := rfl
@[simp] theorem takeFault_outLog : (takeFault f s).outLog = s.outLog := rfl
@[simp] theorem takeFault_faultCode : (takeFault f s).faultCode = some f := rfl
@[simp] theorem takeFault_faultPc : (takeFault f s).faultPc = s.pc := rfl
@[simp] theorem takeFault_config : (takeFault f s).config = s.config := rfl
@[simp] theorem takeFault_pending : (takeFault f s).pending = s.pending := rfl
@[simp] theorem takeFault_responses : (takeFault f s).responses = s.responses := rfl

/-! Answering the host changes `responses` only. -/

@[simp] theorem respond_mem : (s.respond rs).mem = s.mem := rfl
@[simp] theorem respond_ext : (s.respond rs).ext = s.ext := rfl
@[simp] theorem respond_pc : (s.respond rs).pc = s.pc := rfl
@[simp] theorem respond_rb : (s.respond rs).rb = s.rb := rfl
@[simp] theorem respond_engine : (s.respond rs).engine = s.engine := rfl
@[simp] theorem respond_inQ : (s.respond rs).inQ = s.inQ := rfl
@[simp] theorem respond_outLog : (s.respond rs).outLog = s.outLog := rfl
@[simp] theorem respond_faultCode : (s.respond rs).faultCode = s.faultCode := rfl
@[simp] theorem respond_faultPc : (s.respond rs).faultPc = s.faultPc := rfl
@[simp] theorem respond_config : (s.respond rs).config = s.config := rfl
@[simp] theorem respond_pending : (s.respond rs).pending = s.pending := rfl
@[simp] theorem respond_responses : (s.respond rs).responses = s.responses ++ rs := rfl

/-! So does the end of a step. -/

@[simp] theorem endOfStep_mem : (endOfStep s).mem = s.mem := rfl
@[simp] theorem endOfStep_ext : (endOfStep s).ext = s.ext := rfl
@[simp] theorem endOfStep_pc : (endOfStep s).pc = s.pc := rfl
@[simp] theorem endOfStep_rb : (endOfStep s).rb = s.rb := rfl
@[simp] theorem endOfStep_engine : (endOfStep s).engine = s.engine := rfl
@[simp] theorem endOfStep_inQ : (endOfStep s).inQ = s.inQ := rfl
@[simp] theorem endOfStep_outLog : (endOfStep s).outLog = s.outLog := rfl
@[simp] theorem endOfStep_faultCode : (endOfStep s).faultCode = s.faultCode := rfl
@[simp] theorem endOfStep_faultPc : (endOfStep s).faultPc = s.faultPc := rfl
@[simp] theorem endOfStep_config : (endOfStep s).config = s.config := rfl
@[simp] theorem endOfStep_pending : (endOfStep s).pending = s.pending := rfl
@[simp] theorem endOfStep_responses : (endOfStep s).responses = s.responses ++ s.runResponse := rfl

/-! What a read of memory depends on. -/

theorem memRead_eq : s.memRead a = s.mem.read a := rfl

end Sys2Proof.Laws
end

