-- ==== Sys2Proof/Laws/Memory.lean ====
section
/-! SUPPORT. The laws of the sparse memory arbiter: a read after a write, and that every operation keeps the canonical form. -/

namespace Sys2Proof.Laws

open Sys2Proof.Machine

theorem read_filter_same (m : Memory) (a : Nat) : Memory.read (m.filter (fun c => c.1 != a)) a = Memory.unlisted := by
  induction m with
  | nil => rfl
  | cons c m ih =>
    obtain ⟨k, w⟩ := c
    by_cases h : k = a <;> simp [Memory.read, h, ih]

theorem read_filter_other (m : Memory) (a b : Nat) (hb : b ≠ a) :
    Memory.read (m.filter (fun c => c.1 != a)) b = Memory.read m b := by
  induction m with
  | nil => rfl
  | cons c m ih =>
    obtain ⟨k, w⟩ := c
    by_cases h : k = a
    · simp [Memory.read, h, ih, Ne.symm hb]
    · simp [Memory.read, h, ih]

theorem read_insertCell_same (m : Memory) (a : Nat) (v : Word) (h : ∀ c ∈ m, c.1 ≠ a) :
    Memory.read (Memory.insertCell a v m) a = v := by
  induction m with
  | nil => simp [Memory.insertCell, Memory.read]
  | cons c m ih =>
    obtain ⟨k, w⟩ := c
    have hk : k ≠ a := h (k, w) (by simp)
    have ih := ih fun c hc => h c (by simp [hc])
    by_cases hl : k < a <;> simp [Memory.insertCell, Memory.read, hl, hk, ih]

theorem read_insertCell_other (m : Memory) (a b : Nat) (v : Word) (hb : b ≠ a) :
    Memory.read (Memory.insertCell a v m) b = Memory.read m b := by
  induction m with
  | nil => simp [Memory.insertCell, Memory.read, Ne.symm hb]
  | cons c m ih =>
    obtain ⟨k, w⟩ := c
    by_cases hl : k < a <;> simp [Memory.insertCell, Memory.read, hl, ih, Ne.symm hb]

/-- A read at the address written gives the value written, in every memory. -/
@[simp] theorem read_write_same (m : Memory) (a : Nat) (v : Word) : (m.write a v).read a = v := by
  unfold Memory.write
  split
  · next h => rw [read_filter_same, h]
  · exact read_insertCell_same _ _ _ (by simp)

/-- A read anywhere else gives what it gave before, in every memory. -/
theorem read_write_other (m : Memory) (a b : Nat) (v : Word) (hb : b ≠ a) : (m.write a v).read b = m.read b := by
  unfold Memory.write
  split
  · exact read_filter_other m a b hb
  · rw [read_insertCell_other _ _ _ _ hb, read_filter_other m a b hb]

/-- Which cells an insertion lists. -/
theorem mem_insertCell {m : Memory} {a : Nat} {v : Word} {c : Nat × Word} :
    c ∈ Memory.insertCell a v m ↔ c = (a, v) ∨ c ∈ m := by
  induction m with
  | nil => simp [Memory.insertCell]
  | cons d m ih =>
    obtain ⟨k, w⟩ := d
    by_cases hl : k < a
    · simp [Memory.insertCell, hl, ih]; tauto
    · simp [Memory.insertCell, hl]

/-- A cell listed after a write was listed before, or is at the address written. -/
theorem mem_write {m : Memory} {a : Nat} {v : Word} {c : Nat × Word} (h : c ∈ m.write a v) : c ∈ m ∨ c.1 = a := by
  unfold Memory.write at h
  split at h
  · exact .inl (List.mem_filter.mp h).1
  · rcases mem_insertCell.mp h with rfl | h
    · exact .inr rfl
    · exact .inl (List.mem_filter.mp h).1

theorem insertCell_sorted {m : Memory} {a : Nat} {v : Word}
    (hs : m.Pairwise fun c d => c.1 < d.1) (hne : ∀ c ∈ m, c.1 ≠ a) :
    (Memory.insertCell a v m).Pairwise fun c d => c.1 < d.1 := by
  induction m with
  | nil => simp [Memory.insertCell]
  | cons d m ih =>
    obtain ⟨k, w⟩ := d
    have hk : k ≠ a := hne (k, w) (by simp)
    rw [List.pairwise_cons] at hs
    by_cases hl : k < a
    · simp only [Memory.insertCell, hl, if_true, List.pairwise_cons]
      refine ⟨fun c hc => ?_, ih hs.2 fun c hc => hne c (by simp [hc])⟩
      rcases mem_insertCell.mp hc with rfl | hc
      · exact hl
      · exact hs.1 c hc
    · simp only [Memory.insertCell, hl, if_false, List.pairwise_cons]
      refine ⟨fun c hc => ?_, hs.1, hs.2⟩
      rcases List.mem_cons.mp hc with rfl | hc
      · show a < k; omega
      · have := hs.1 c hc; show a < c.1; simp only at this; omega

/-- A write keeps the canonical form. -/
theorem write_wf {m : Memory} (h : m.wf) (a : Nat) (v : Word) : (m.write a v).wf := by
  unfold Memory.write
  have hf : Memory.wf (m.filter (fun c => c.1 != a)) :=
    ⟨h.1.filter _, fun c hc => h.2 c (List.mem_filter.mp hc).1⟩
  split
  · exact hf
  · next hv =>
    refine ⟨insertCell_sorted hf.1 (by simp), fun c hc => ?_⟩
    rcases mem_insertCell.mp hc with rfl | hc
    · exact hv
    · exact hf.2 c hc

/-- A listed cell of a canonical memory is what is read there. -/
theorem read_of_mem {m : Memory} (hs : m.Pairwise fun c d => c.1 < d.1) {c : Nat × Word} (hc : c ∈ m) :
    m.read c.1 = c.2 := by
  induction m with
  | nil => simp at hc
  | cons d m ih =>
    obtain ⟨k, w⟩ := d
    rw [List.pairwise_cons] at hs
    rcases List.mem_cons.mp hc with rfl | hc
    · simp [Memory.read]
    · have : k ≠ c.1 := by have := hs.1 c hc; simp only at this; omega
      simp [Memory.read, this, ih hs.2 hc]

/-- An address with no cell reads as unlisted. -/
theorem read_of_not_mem {m : Memory} {a : Nat} (h : ∀ c ∈ m, c.1 ≠ a) : m.read a = Memory.unlisted := by
  induction m with
  | nil => rfl
  | cons d m ih =>
    obtain ⟨k, w⟩ := d
    have hk : k ≠ a := h (k, w) (by simp)
    simp [Memory.read, hk, ih fun c hc => h c (by simp [hc])]

/-- Below the address of every cell, memory reads as unlisted. -/
theorem read_below {m : Memory} {a : Nat} (h : ∀ c ∈ m, a < c.1) : m.read a = Memory.unlisted :=
  read_of_not_mem fun c hc => (h c hc).ne'

/-- The cells of a loaded word list stand at addresses `base .. base + length - 1`. -/
theorem mem_ofWords {ws : List Word} {base : Nat} {c : Nat × Word} (h : c ∈ Memory.ofWords base ws) :
    base ≤ c.1 ∧ c.1 < base + ws.length ∧ c.2 ≠ Memory.unlisted := by
  induction ws generalizing base with
  | nil => simp [Memory.ofWords] at h
  | cons w ws ih =>
    unfold Memory.ofWords at h
    split at h
    · have := ih h; simp only [List.length_cons]; exact ⟨by omega, by omega, this.2.2⟩
    · next hw =>
      rcases List.mem_cons.mp h with rfl | h
      · simp [hw]
      · have := ih h; simp only [List.length_cons]; exact ⟨by omega, by omega, this.2.2⟩

/-- A loaded memory is in canonical form. -/
theorem ofWords_wf (ws : List Word) (base : Nat) : (Memory.ofWords base ws).wf := by
  refine ⟨?_, fun c hc => (mem_ofWords hc).2.2⟩
  induction ws generalizing base with
  | nil => simp [Memory.ofWords]
  | cons w ws ih =>
    unfold Memory.ofWords
    split
    · exact ih _
    · exact List.pairwise_cons.mpr ⟨fun c hc => by have := (mem_ofWords hc).1; show base < c.1; omega, ih _⟩

/-- What a loaded memory reads as (49_host_interface.md R140). -/
theorem read_ofWords (ws : List Word) (base i : Nat) :
    (Memory.ofWords base ws).read (base + i) = (ws[i]?).getD Memory.unlisted := by
  induction ws generalizing base i with
  | nil => simp [Memory.ofWords, Memory.read]
  | cons w ws ih =>
    unfold Memory.ofWords
    cases i with
    | zero =>
      split
      · next h =>
        rw [read_below fun c hc => by have := (mem_ofWords hc).1; omega]; simp [h]
      · simp [Memory.read]
    | succ i =>
      have := ih (base + 1) i
      rw [(by omega : base + 1 + i = base + (i + 1))] at this
      have hne : base ≠ base + (i + 1) := by omega
      split
      · simpa using this
      · simpa [Memory.read, hne] using this

/-- The memory after reset has the canonical form. -/
theorem reset_mem_wf : State.reset.mem.wf := by decide

/-! What a read of the state gives after MemWrite (20_memory.md R41, R42). -/

@[simp] theorem memRead_memWrite_same (s : State) (a : Nat) (v : Word) : (s.memWrite a v).memRead a = v :=
  read_write_same s.mem a v

theorem memRead_memWrite_other (s : State) (a b : Nat) (v : Word) (h : b ≠ a) :
    (s.memWrite a v).memRead b = s.memRead b :=
  read_write_other s.mem a b v h

end Sys2Proof.Laws
end

