-- ==== Sys2Proof/Laws/Ops.lean ====
section
/-! SUPPORT. One lemma per shared operation that says once everything it can do. -/

namespace Sys2Proof.Laws

open Sys2Proof.Machine

/-! Checks. -/

@[simp] theorem ok_bind {ε α β : Type} (a : α) (k : α → Checked ε β) : (Checked.ok a).bind k = k a := rfl

@[simp] theorem raise_bind {ε α β : Type} (f : ε) (k : α → Checked ε β) :
    (Checked.raise f : Checked ε α).bind k = .raise f := rfl

/-- A chain of checks gives a value exactly where its first check does and the rest gives that value. -/
theorem bind_eq_ok {ε α β : Type} {x : Checked ε α} {k : α → Checked ε β} {b : β} :
    x.bind k = .ok b ↔ ∃ a, x = .ok a ∧ k a = .ok b := by
  cases x <;> simp

/-- A chain raises a fault exactly where its first check does, or the rest does. -/
theorem bind_eq_raise {ε α β : Type} {x : Checked ε α} {k : α → Checked ε β} {f : ε} :
    x.bind k = .raise f ↔ x = .raise f ∨ ∃ a, x = .ok a ∧ k a = .raise f := by
  cases x <;> simp

/-- A committed or faulting step always answers a next state. -/
theorem commitOrFault_eq_next {s t : State} {r : Checked FaultKind State} :
    commitOrFault s r = .next t ↔ r = .ok t ∨ ∃ f, r = .raise f ∧ t = takeFault f s := by
  cases r <;> simp [commitOrFault, eq_comm]

/-! Words. -/

theorem toInt_range (w : Word) : wordMin ≤ w.toInt ∧ w.toInt ≤ wordMax := by
  have h1 := BitVec.le_toInt w
  have h2 := BitVec.toInt_lt (x := w)
  simp only [wordMin, wordMax]
  norm_num at h1 h2
  omega

theorem toInt_ofInt {r : Int} (h : wordMin ≤ r ∧ r ≤ wordMax) : (BitVec.ofInt 64 r).toInt = r := by
  simp only [wordMin, wordMax] at h
  rw [BitVec.toInt_ofInt, Int.bmod_def]
  norm_num
  omega

/-- `narrow` gives exactly the Word of that value (41_arithmetic.md R109). -/
theorem narrow_eq_ok {r : Int} {w : Word} : narrow r = .ok w ↔ w.toInt = r := by
  unfold narrow
  split
  · next h =>
    constructor
    · intro e; cases e; exact toInt_ofInt h
    · rintro rfl; simp
  · next h => constructor
              · intro e; cases e
              · rintro rfl; exact absurd (toInt_range w) h

theorem narrow_eq_raise {r : Int} {f : FaultKind} :
    narrow r = .raise f ↔ f = .overflow ∧ ¬(wordMin ≤ r ∧ r ≤ wordMax) := by
  unfold narrow
  split
  · next h => simp [h]
  · next h => simp [h, eq_comm]

theorem narrow_of_range {r : Int} (h : wordMin ≤ r ∧ r ≤ wordMax) : narrow r = .ok (BitVec.ofInt 64 r) :=
  if_pos h

theorem nextPc_eq_ok {s : State} {n : Nat} {w : Word} : nextPc s n = .ok w ↔ w.toInt = s.pc.toInt + n + 1 :=
  narrow_eq_ok

/-- The advance can only leave the Word range above (40_engine.md R94). -/
theorem nextPc_eq_raise {s : State} {n : Nat} {f : FaultKind} :
    nextPc s n = .raise f ↔ f = .overflow ∧ wordMax < s.pc.toInt + n + 1 := by
  have := toInt_range s.pc
  unfold nextPc
  rw [narrow_eq_raise]
  constructor <;> rintro ⟨rfl, h⟩ <;> refine ⟨rfl, ?_⟩ <;> simp only [wordMin, wordMax] at this h ⊢ <;> omega

theorem nextPc_of_le {s : State} {n : Nat} (h : s.pc.toInt + n + 1 ≤ wordMax) :
    nextPc s n = .ok (BitVec.ofInt 64 (s.pc.toInt + n + 1)) := by
  have := toInt_range s.pc
  exact narrow_of_range ⟨by simp only [wordMin] at this ⊢; omega, h⟩

@[simp] theorem checkCapacity_eq_ok {s : State} {a : Nat} {u : Unit} : checkCapacity s a = .ok u ↔ s.memAdmits a = true := by
  unfold checkCapacity; split <;> simp_all

@[simp] theorem checkCapacity_eq_raise {s : State} {a : Nat} {f : FaultKind} :
    checkCapacity s a = .raise f ↔ f = .resourceExhausted ∧ s.memAdmits a = false := by
  unfold checkCapacity
  cases h : s.memAdmits a
  · simpa using eq_comm
  · simp

/-! The resolver (20_memory.md R52, R53). -/

theorem checkAddress_eq_ok {x : Int} {a : Nat} : checkAddress x = .ok a ↔ (a : Int) = x ∧ a ≤ addrMax := by
  unfold checkAddress
  split
  · next h => constructor
              · intro e; cases e
              · rintro ⟨rfl, h2⟩; omega
  · next h => constructor
              · intro e; cases e; omega
              · rintro ⟨rfl, -⟩; simp

theorem checkAddress_eq_raise {x : Int} {f : FaultKind} :
    checkAddress x = .raise f ↔ f = .invalidOperand ∧ (x < 0 ∨ addrMax < x) := by
  unfold checkAddress
  split
  · next h => simp [h, eq_comm]
  · next h => simp [h]

theorem valueOf_eq_raise {p : Param} {s : State} {f : FaultKind} (h : valueOf p s = .raise f) : f = .invalidOperand := by
  unfold valueOf at h
  split at h
  · cases h
  · simp only [bind_eq_raise, checkAddress_eq_raise, reduceCtorEq, and_false, exists_false, or_false] at h; exact h.1
  · simp only [bind_eq_raise, checkAddress_eq_raise, reduceCtorEq, and_false, exists_false, or_false] at h; exact h.1

theorem addressOf_eq_raise {p : Param} {s : State} {f : FaultKind} (h : addressOf p s = .raise f) :
    f = .invalidOperand := by
  unfold addressOf at h
  split at h
  · cases h; rfl
  · exact (checkAddress_eq_raise.mp h).1
  · exact (checkAddress_eq_raise.mp h).1

/-- A resolved destination lies in the address space (20_memory.md R43). -/
theorem addressOf_le {p : Param} {s : State} {a : Nat} (h : addressOf p s = .ok a) : a ≤ addrMax := by
  unfold addressOf at h
  split at h
  · cases h
  · exact (checkAddress_eq_ok.mp h).2
  · exact (checkAddress_eq_ok.mp h).2

/-- A destination that resolves is not Immediate. -/
theorem addressOf_mode {p : Param} {s : State} {a : Nat} (h : addressOf p s = .ok a) : p.mode ≠ .imm := by
  intro hm; simp [addressOf, hm] at h

end Sys2Proof.Laws
end

