-- ==== Sys2Proof/Laws/Assembly.lean ====
section
/-! SUPPORT. What the assembler does, said once: values, lines and programs (30_encoding.md R81, R82). -/

namespace Sys2Proof.Laws

/-- A list of computations succeeds exactly where each does, element by element. -/
theorem mapM_eq_some {α β : Type} {f : α → Option β} {l : List α} {r : List β} :
    l.mapM f = some r ↔ List.Forall₂ (fun a b => f a = some b) l r := by
  induction l generalizing r with
  | nil => cases r <;> simp
  | cons a l ih =>
    rw [List.mapM_cons]
    cases r with
    | nil => cases f a <;> cases l.mapM f <;> simp
    | cons b r =>
      rw [List.forall₂_cons, ← ih]
      cases f a <;> cases l.mapM f <;> simp

@[simp] theorem asmLength_nil : asmLength [] = 0 := rfl

@[simp] theorem asmLength_cons (l : AsmLine) (ls : List AsmLine) : asmLength (l :: ls) = l.size + asmLength ls := rfl

/-- A label is looked up at its first definition (log entry 19). -/
theorem lookup_labelsFrom {lines : List AsmLine} {a n : Nat} {name : String} :
    (labelsFrom a lines).lookup name = some n ↔
      ∃ before after, lines = before ++ .label name :: after ∧ AsmLine.label name ∉ before ∧
        n = a + asmLength before := by
  induction lines generalizing a with
  | nil => simp [labelsFrom]
  | cons l ls ih =>
    have step : ∀ (h : l ≠ .label name), (∃ before after, l :: ls = before ++ .label name :: after ∧
          AsmLine.label name ∉ before ∧ n = a + asmLength before) ↔
        (labelsFrom (a + l.size) ls).lookup name = some n := by
      intro h
      rw [ih]
      constructor
      · rintro ⟨before, after, e, hn, rfl⟩
        cases before with
        | nil => simp only [List.nil_append, List.cons.injEq] at e; exact absurd e.1 h
        | cons b before =>
          simp only [List.cons_append, List.cons.injEq] at e
          obtain ⟨rfl, rfl⟩ := e
          exact ⟨before, after, rfl, fun hm => hn (List.mem_cons_of_mem _ hm), by rw [asmLength_cons]; omega⟩
      · rintro ⟨before, after, rfl, hn, rfl⟩
        refine ⟨l :: before, after, rfl, ?_, by rw [asmLength_cons]; omega⟩
        simp only [List.mem_cons, not_or]
        exact ⟨fun h' => h h'.symm, hn⟩
    cases l with
    | label m =>
      by_cases hm : m = name
      · subst hm
        simp only [labelsFrom, List.lookup_cons, beq_self_eq_true, Option.some.injEq]
        constructor
        · rintro rfl; exact ⟨[], ls, rfl, by simp, by simp⟩
        · rintro ⟨before, after, e, hn, rfl⟩
          cases before with
          | nil => simp
          | cons b before =>
            simp only [List.cons_append, List.cons.injEq] at e
            exact absurd (by simp [e.1]) hn
      · rw [step (by simp [hm])]
        have : (name == m) = false := by simp [Ne.symm hm]
        simp [labelsFrom, List.lookup_cons, this, AsmLine.size]
    | op o ps => rw [step (by simp)]; rfl
    | words ws => rw [step (by simp)]; rfl

/-- An integer is a Word exactly where it fits. -/
theorem wordOf?_eq_some {n : Int} {w : Word} : wordOf? n = some w ↔ w.toInt = n := by
  unfold wordOf?
  split
  · next h =>
    constructor
    · intro e; cases e; exact toInt_ofInt h
    · rintro rfl; simp
  · next h =>
    constructor
    · intro e; cases e
    · rintro rfl; exact absurd (toInt_range w) h

/-- What `.word` places. -/
theorem word?_eq_some {labels : List (String × Nat)} {v : AsmValue} {w : Word} :
    AsmValue.word? labels v = some w ↔ v.int? labels = some w.toInt := by
  simp only [AsmValue.word?, Option.bind_eq_some_iff, wordOf?_eq_some, exists_eq_right']

/-- What an operand places. -/
theorem operand_word?_eq_some {labels : List (String × Nat)} {o : AsmOperand} {w : Word} :
    AsmOperand.word? labels o = some w ↔ ∃ n, o.value.int? labels = some n ∧ w.toInt = o.signed n := by
  simp only [AsmOperand.word?, Option.bind_eq_some_iff, wordOf?_eq_some]

/-- A label stands for the address it is looked up at. -/
theorem int?_label {labels : List (String × Nat)} {name : String} {n : Int} :
    AsmValue.int? labels (.label name) = some n ↔ ∃ a : Nat, labels.lookup name = some a ∧ n = a := by
  simp only [AsmValue.int?, Option.map_eq_some_iff, Int.ofNat_eq_natCast, eq_comm (a := n)]

/-- When an instruction line has words, and which (R82). -/
theorem words?_op {labels : List (String × Nat)} {opc : Opcode} {operands : List AsmOperand} {ws : List Word} :
    AsmLine.words? labels (.op opc operands) = some ws ↔
      operands.length = opc.arity ∧ ∃ vs,
        List.Forall₂ (fun o v => AsmOperand.word? labels o = some v) operands vs ∧
        ws = BitVec.ofNat 64 (canonicalNat opc (operands.map AsmOperand.mode)) :: vs := by
  simp only [AsmLine.words?]
  split
  · next h => simp only [h, true_and, Option.map_eq_some_iff, mapM_eq_some, eq_comm (b := ws)]
  · next h => simp [h]

/-- When a program has words, and which (R82). -/
theorem assemble_eq_some {program : List AsmLine} {ws : List Word} :
    assemble program = some ws ↔
      ∃ wss, List.Forall₂ (fun l w => AsmLine.words? (labelsFrom 0 program) l = some w) program wss ∧ ws = wss.flatten := by
  simp only [assemble, Option.map_eq_some_iff, mapM_eq_some, eq_comm (b := ws)]

/-- A line has as many words as its size says. -/
theorem words?_length {labels : List (String × Nat)} {l : AsmLine} {ws : List Word} (h : l.words? labels = some ws) :
    ws.length = l.size := by
  cases l with
  | label m => cases h; rfl
  | op o ps =>
    obtain ⟨-, vs, hv, rfl⟩ := words?_op.mp h
    simp [AsmLine.size, hv.length_eq]
  | words vs => exact (mapM_eq_some.mp h).length_eq.symm

theorem flatten_length {labels : List (String × Nat)} {ls : List AsmLine} {wss : List (List Word)}
    (h : List.Forall₂ (fun l w => AsmLine.words? labels l = some w) ls wss) : wss.flatten.length = asmLength ls := by
  induction h with
  | nil => rfl
  | cons h _ ih => simp [List.flatten_cons, ih, words?_length h]

theorem forall₂_append {α β : Type} {R : α → β → Prop} {l1 l2 : List α} {r : List β} (h : List.Forall₂ R (l1 ++ l2) r) :
    ∃ r1 r2, List.Forall₂ R l1 r1 ∧ List.Forall₂ R l2 r2 ∧ r = r1 ++ r2 := by
  induction l1 generalizing r with
  | nil => exact ⟨[], r, .nil, h, rfl⟩
  | cons a l1 ih =>
    cases h with
    | cons h1 h2 =>
      obtain ⟨r1, r2, h3, h4, rfl⟩ := ih h2
      exact ⟨_ :: r1, r2, .cons h1 h3, h4, rfl⟩

/-- The words of a line stand at the sum of the sizes of the lines before it. -/
theorem assemble_line {before after : List AsmLine} {l : AsmLine} {ws : List Word}
    (h : assemble (before ++ l :: after) = some ws) :
    ∃ w, l.words? (labelsFrom 0 (before ++ l :: after)) = some w ∧
      ∀ j, j < w.length → ws[asmLength before + j]? = w[j]? := by
  obtain ⟨wss, hf, rfl⟩ := assemble_eq_some.mp h
  obtain ⟨w1, w2, h1, h2, rfl⟩ := forall₂_append hf
  cases h2 with
  | @cons _ w _ w2 hl hr =>
    refine ⟨w, hl, fun j hj => ?_⟩
    rw [List.flatten_append, List.getElem?_append_right (by rw [flatten_length h1]; omega), flatten_length h1,
      List.flatten_cons, List.getElem?_append_left (by omega)]
    congr 1; omega

end Sys2Proof.Laws
end

