-- ==== Sys2Proof/Laws/Decode.lean ====
section
/-! SUPPORT. What the decoder answers, said once (`decode_eq_ok`), and the lemmas of its parts. -/

namespace Sys2Proof.Laws

open Sys2Proof.Machine

/-- The modes are the digits 0, 1 and 2 (30_encoding.md R69). -/
theorem ofDigit_eq_some {d : Nat} {m : Mode} : Mode.ofDigit d = some m ↔ m.digit = d := by
  match d with
  | 0 => cases m <;> decide
  | 1 => cases m <;> decide
  | 2 => cases m <;> decide
  | d + 3 => cases m <;> simp [Mode.ofDigit, Mode.digit]

theorem ofDigit_eq_none {d : Nat} : Mode.ofDigit d = none ↔ 2 < d := by
  match d with
  | 0 => decide
  | 1 => decide
  | 2 => decide
  | d + 3 => simp [Mode.ofDigit]

theorem digit_le_two (m : Mode) : m.digit ≤ 2 := by
  cases m <;> decide

/-- The opcode lookup finds exactly the row of that number (R67). -/
theorem lookupOpcode_eq_some {n : Nat} {op : Opcode} : lookupOpcode n = some op ↔ op.number = n := by
  constructor
  · intro h
    simpa using List.find?_some h
  · rintro rfl
    cases op <;> rfl

theorem lookupOpcode_eq_none {n : Nat} : lookupOpcode n = none ↔ ∀ op : Opcode, op.number ≠ n := by
  rw [← not_iff_not]
  simp [← Option.isSome_iff_ne_none, Option.isSome_iff_exists, lookupOpcode_eq_some]

theorem decodeParam_eq_ok {md i : Nat} {v : Word} {p : Param} :
    decodeParam md i v = .ok p ↔ p.value = v ∧ p.mode.digit = digit (i - 1) md := by
  obtain ⟨w, m⟩ := p
  unfold decodeParam
  cases h : Mode.ofDigit (digit (i - 1) md) with
  | none =>
    have h1 := ofDigit_eq_none.mp h
    have h2 := digit_le_two m
    simp only [reduceCtorEq, false_iff, not_and]
    intro _; omega
  | some m' =>
    have h1 := ofDigit_eq_some.mp h
    simp only [Checked.ok.injEq, Param.mk.injEq, ← h1]
    have : m.digit = m'.digit ↔ m = m' := by cases m <;> cases m' <;> decide
    rw [this, eq_comm (a := v), eq_comm (a := m')]

theorem decodeParam_eq_raise {md i : Nat} {v : Word} {f : DecodeFault} :
    decodeParam md i v = .raise f ↔ f = .invalidMode i (digit (i - 1) md) ∧ 2 < digit (i - 1) md := by
  unfold decodeParam
  cases h : Mode.ofDigit (digit (i - 1) md) with
  | none => simp [ofDigit_eq_none.mp h, eq_comm]
  | some m =>
    have h1 := ofDigit_eq_some.mp h
    have h2 := digit_le_two m
    simp only [reduceCtorEq, false_iff, not_and, ← h1]
    intro _; omega

theorem checkExcess_eq_ok {strict : Bool} {md n : Nat} {i j : Instr} :
    checkExcess strict md n i = .ok j ↔ i = j ∧ (strict = true → md / 10 ^ n = 0) := by
  unfold checkExcess
  split
  · next h => simp [h.1, h.2]
  · next h => simp only [Checked.ok.injEq, iff_self_and]; intro _ hs; by_contra h0; exact h ⟨hs, h0⟩

theorem checkExcess_eq_raise {strict : Bool} {md n : Nat} {i : Instr} {f : DecodeFault} :
    checkExcess strict md n i = .raise f ↔
      f = .invalidMode (n + 1) (digit n md) ∧ strict = true ∧ md / 10 ^ n ≠ 0 := by
  unfold checkExcess
  split
  · next h => simp [h.1, h.2, eq_comm]
  · next h => simp only [reduceCtorEq, false_iff, not_and]; intro _ h1 h2; exact h ⟨h1, h2⟩

/-- The parameters have the modes of the mode word's digits, the first operand's digit first (R66, R72). -/
def ModesAre (md : Nat) (ps : List Param) : Prop :=
  ∀ j p, ps[j]? = some p → p.mode.digit = digit j md

theorem modesAre_one {md : Nat} {p1 : Param} : ModesAre md [p1] ↔ p1.mode.digit = digit 0 md := by
  constructor
  · intro h; exact h 0 p1 rfl
  · intro h j p hj
    match j, hj with
    | 0, rfl => exact h

theorem modesAre_two {md : Nat} {p1 p2 : Param} :
    ModesAre md [p1, p2] ↔ p1.mode.digit = digit 0 md ∧ p2.mode.digit = digit 1 md := by
  constructor
  · intro h; exact ⟨h 0 p1 rfl, h 1 p2 rfl⟩
  · rintro ⟨h1, h2⟩ j p hj
    match j, hj with
    | 0, rfl => exact h1
    | 1, rfl => exact h2

theorem modesAre_three {md : Nat} {p1 p2 p3 : Param} :
    ModesAre md [p1, p2, p3] ↔
      p1.mode.digit = digit 0 md ∧ p2.mode.digit = digit 1 md ∧ p3.mode.digit = digit 2 md := by
  constructor
  · intro h; exact ⟨h 0 p1 rfl, h 1 p2 rfl, h 2 p3 rfl⟩
  · rintro ⟨h1, h2, h3⟩ j p hj
    match j, hj with
    | 0, rfl => exact h1
    | 1, rfl => exact h2
    | 2, rfl => exact h3

theorem digit_succ (k v : Nat) : digit (k + 1) v = digit k (v / 10) := by
  simp only [digit, pow_succ', Nat.div_div_eq_div_mul]

theorem modesAre_cons {md : Nat} {p : Param} {ps : List Param} :
    ModesAre md (p :: ps) ↔ p.mode.digit = md % 10 ∧ ModesAre (md / 10) ps := by
  constructor
  · intro h
    exact ⟨by simpa [digit] using h 0 p rfl, fun j q hj => by rw [← digit_succ]; exact h (j + 1) q hj⟩
  · rintro ⟨h0, h⟩ j q hj
    cases j with
    | zero => cases hj; simpa [digit] using h0
    | succ j => rw [digit_succ]; exact h j q hj

/-- The mode digits, as one mode word (R66, R80). -/
theorem modesAre_iff {md : Nat} {ps : List Param} :
    ModesAre md ps ↔ md % 10 ^ ps.length = modeWord (ps.map Param.mode) := by
  induction ps generalizing md with
  | nil => simp [ModesAre, modeWord, Nat.mod_one]
  | cons p ps ih =>
    have := digit_le_two p.mode
    rw [modesAre_cons, ih, List.length_cons, pow_succ', Nat.mod_mul]
    simp only [List.map_cons, modeWord]
    omega

/-- A mode word has as many digits as there are modes. -/
theorem modeWord_lt (ms : List Mode) : modeWord ms < 10 ^ ms.length := by
  induction ms with
  | nil => decide
  | cons m ms ih =>
    have := digit_le_two m
    simp only [modeWord, List.length_cons, pow_succ']
    omega

theorem decodeF1_eq_ok {mk : Param → Instr} {strict : Bool} {md : Nat} {words : List Word} {i : Instr} :
    decodeF1 mk strict md words = .ok i ↔
      ∃ p1, i = mk p1 ∧ [p1].map Param.value <+: words ∧ ModesAre md [p1] ∧ (strict = true → md / 10 ^ 1 = 0) := by
  match words with
  | [] => simp [decodeF1]
  | v1 :: r =>
    simp only [decodeF1, bind_eq_ok, decodeParam_eq_ok, checkExcess_eq_ok, modesAre_one]
    constructor
    · rintro ⟨p1, ⟨rfl, h1⟩, rfl, hs⟩
      exact ⟨p1, rfl, ⟨r, rfl⟩, h1, hs⟩
    · rintro ⟨p1, rfl, ⟨r', hr⟩, h1, hs⟩
      simp only [List.map_cons, List.map_nil, List.cons_append, List.cons.injEq] at hr
      exact ⟨p1, ⟨hr.1, h1⟩, rfl, hs⟩

theorem decodeF2_eq_ok {mk : Param → Param → Instr} {strict : Bool} {md : Nat} {words : List Word} {i : Instr} :
    decodeF2 mk strict md words = .ok i ↔
      ∃ p1 p2, i = mk p1 p2 ∧ [p1, p2].map Param.value <+: words ∧ ModesAre md [p1, p2] ∧
        (strict = true → md / 10 ^ 2 = 0) := by
  match words with
  | [] => simp [decodeF2]
  | [_] => simp [decodeF2]
  | v1 :: v2 :: r =>
    simp only [decodeF2, bind_eq_ok, decodeParam_eq_ok, checkExcess_eq_ok, modesAre_two]
    constructor
    · rintro ⟨p1, ⟨rfl, h1⟩, p2, ⟨rfl, h2⟩, rfl, hs⟩
      exact ⟨p1, p2, rfl, ⟨r, rfl⟩, ⟨h1, h2⟩, hs⟩
    · rintro ⟨p1, p2, rfl, ⟨r', hr⟩, ⟨h1, h2⟩, hs⟩
      simp only [List.map_cons, List.map_nil, List.cons_append, List.cons.injEq] at hr
      exact ⟨p1, ⟨hr.1, h1⟩, p2, ⟨hr.2.1, h2⟩, rfl, hs⟩

theorem decodeF3_eq_ok {mk : Param → Param → Param → Instr} {strict : Bool} {md : Nat} {words : List Word} {i : Instr} :
    decodeF3 mk strict md words = .ok i ↔
      ∃ p1 p2 p3, i = mk p1 p2 p3 ∧ [p1, p2, p3].map Param.value <+: words ∧ ModesAre md [p1, p2, p3] ∧
        (strict = true → md / 10 ^ 3 = 0) := by
  match words with
  | [] => simp [decodeF3]
  | [_] => simp [decodeF3]
  | [_, _] => simp [decodeF3]
  | v1 :: v2 :: v3 :: r =>
    simp only [decodeF3, bind_eq_ok, decodeParam_eq_ok, checkExcess_eq_ok, modesAre_three]
    constructor
    · rintro ⟨p1, ⟨rfl, h1⟩, p2, ⟨rfl, h2⟩, p3, ⟨rfl, h3⟩, rfl, hs⟩
      exact ⟨p1, p2, p3, rfl, ⟨r, rfl⟩, ⟨h1, h2, h3⟩, hs⟩
    · rintro ⟨p1, p2, p3, rfl, ⟨r', hr⟩, ⟨h1, h2, h3⟩, hs⟩
      simp only [List.map_cons, List.map_nil, List.cons_append, List.cons.injEq] at hr
      exact ⟨p1, ⟨hr.1, h1⟩, p2, ⟨hr.2.1, h2⟩, p3, ⟨hr.2.2.1, h3⟩, rfl, hs⟩

/-- An instruction has as many parameters as its opcode's arity (R65). -/
theorem params_length (i : Instr) : i.params.length = i.opcode.arity := by
  cases i <;> rfl

/-- When the operand part of the decoder gives `i`. -/
theorem decodeOperands_eq_ok {op : Opcode} {strict : Bool} {md : Nat} {words : List Word} {i : Instr} :
    decodeOperands op strict md words = .ok i ↔
      i.opcode = op ∧ i.params.map Param.value <+: words ∧ ModesAre md i.params ∧
        (strict = true → md / 10 ^ op.arity = 0) := by
  cases op <;> simp only [decodeOperands, decodeF1_eq_ok, decodeF2_eq_ok, decodeF3_eq_ok, checkExcess_eq_ok]
  all_goals constructor
  all_goals first
    | (rintro ⟨p1, p2, p3, rfl, h1, h2, h3⟩; exact ⟨rfl, h1, h2, h3⟩)
    | (rintro ⟨p1, p2, rfl, h1, h2, h3⟩; exact ⟨rfl, h1, h2, h3⟩)
    | (rintro ⟨p1, rfl, h1, h2, h3⟩; exact ⟨rfl, h1, h2, h3⟩)
    | (rintro ⟨rfl, h3⟩; exact ⟨rfl, List.nil_prefix, fun j p h => by simp [Instr.params] at h, h3⟩)
    | (rintro ⟨ho, h1, h2, h3⟩; cases i <;> simp only [Instr.opcode, reduceCtorEq] at ho <;>
        first | exact ⟨_, _, _, rfl, h1, h2, h3⟩ | exact ⟨_, _, rfl, h1, h2, h3⟩ | exact ⟨_, rfl, h1, h2, h3⟩
              | exact ⟨rfl, h3⟩)

/-- When the decoder gives `i` (R66 to R75). -/
theorem decode_eq_ok {strict : Bool} {raw : Word} {words : List Word} {i : Instr} :
    decode strict raw words = .ok i ↔
      0 ≤ raw.toInt ∧ raw.toNat % 100 = i.opcode.number ∧ i.params.map Param.value <+: words ∧
        ModesAre (raw.toNat / 100) i.params ∧ (strict = true → raw.toNat / 100 / 10 ^ i.opcode.arity = 0) := by
  unfold decode
  split
  · next h => simp only [reduceCtorEq, false_iff, not_and]; intro h0; omega
  · next h =>
    cases hl : lookupOpcode (raw.toNat % 100) with
    | none =>
      have := lookupOpcode_eq_none.mp hl
      simp only [reduceCtorEq, false_iff, not_and]
      intro _ h1; exact absurd h1.symm (this _)
    | some op =>
      have hop := lookupOpcode_eq_some.mp hl
      simp only [decodeOperands_eq_ok]
      constructor
      · rintro ⟨rfl, h1, h2, h3⟩; exact ⟨by omega, hop.symm, h1, h2, h3⟩
      · rintro ⟨-, h0, h1, h2, h3⟩
        have : i.opcode = op := by
          rw [← hop] at h0
          have := lookupOpcode_eq_some.mpr h0.symm
          rw [lookupOpcode_eq_some.mpr rfl] at this
          exact Option.some.inj this.symm
        subst this
        exact ⟨rfl, h1, h2, h3⟩

/-- The operand words run out exactly where there are fewer than the arity (R74). -/
theorem decodeOperands_truncated {op : Opcode} {strict : Bool} {md : Nat} {words : List Word} {n : Nat} :
    decodeOperands op strict md words = .raise (.truncatedInstruction n) ↔ words.length < op.arity ∧ n = op.arity := by
  cases op <;>
    rcases words with _ | ⟨v1, _ | ⟨v2, _ | ⟨v3, r⟩⟩⟩ <;>
    simp [decodeOperands, decodeF1, decodeF2, decodeF3, bind_eq_raise, decodeParam_eq_raise, checkExcess_eq_raise,
      Opcode.arity] <;> omega

/-- The operand part of the decoder never answers UnknownOpcode. -/
theorem decodeOperands_known {op : Opcode} {strict : Bool} {md : Nat} {words : List Word} {w : Word} :
    decodeOperands op strict md words ≠ .raise (.unknownOpcode w) := by
  cases op <;>
    rcases words with _ | ⟨v1, _ | ⟨v2, _ | ⟨v3, r⟩⟩⟩ <;>
    simp [decodeOperands, decodeF1, decodeF2, decodeF3, bind_eq_raise, decodeParam_eq_raise, checkExcess_eq_raise]

/-- The operand part of the decoder at a word of the table. -/
theorem decode_of_opcode {strict : Bool} {raw : Word} {words : List Word} {op : Opcode} (h0 : 0 ≤ raw.toInt)
    (hop : raw.toNat % 100 = op.number) :
    decode strict raw words = decodeOperands op strict (raw.toNat / 100) words := by
  unfold decode
  rw [if_neg (by omega), lookupOpcode_eq_some.mpr hop.symm]

end Sys2Proof.Laws
end

