-- ==== Sys2Proof/Laws/Step.lean ====
section
/-! SUPPORT. What an instruction can do, said once (`Effect`, `exec_effect`), and what a step can do (`step_running`,
`step_notRunning`). Every invariant of the machine follows by cases on these. -/

namespace Sys2Proof.Laws

open Sys2Proof.Machine

/-- Everything a completed or faulting instruction can have done to the state (40_engine.md R92 to R94). -/
inductive Effect (s : State) : Instr → State → Prop where
  /-- A fault was taken. -/
  | fault {i : Instr} (f : FaultKind) : Effect s i (takeFault f s)
  /-- Add, Multiply, LessThan or Equal stored a result. -/
  | store {i : Instr} (p : Param) (c : Nat) (v npc : Word) (hd : i.destination = some p)
      (hn : i.opcode.arity = 3) (hc : addressOf p s = .ok c) (hp : npc.toInt = s.pc.toInt + 4)
      (ha : s.memAdmits c = true) : Effect s i { s.memWrite c v with pc := npc }
  /-- Input consumed the head of the queue. -/
  | input (p : Param) (c : Nat) (v npc : Word) (rest : List Word) (hc : addressOf p s = .ok c)
      (hq : s.inQ = v :: rest) (hp : npc.toInt = s.pc.toInt + 2) (ha : s.memAdmits c = true) :
      Effect s (.input p) { s.memWrite c v with inQ := rest, pc := npc }
  /-- Input found the queue empty. -/
  | suspend (p : Param) (c : Nat) (hc : addressOf p s = .ok c) (hq : s.inQ = []) :
      Effect s (.input p) { s with engine := .suspended }
  /-- Output appended a value. -/
  | output (p : Param) (a npc : Word) (hv : valueOf p s = .ok a) (hp : npc.toInt = s.pc.toInt + 2) :
      Effect s (.output p) { s with outLog := s.outLog ++ [a], pc := npc }
  /-- A jump was taken. -/
  | jump {i : Instr} (b : Word) (hj : jumpTarget? i s = some b) : Effect s i { s with pc := b }
  /-- A jump was not taken. -/
  | fallThrough {i : Instr} (npc : Word) (hj : jumpTarget? i s = none) (hn : i.opcode.arity = 2)
      (hp : npc.toInt = s.pc.toInt + 3) : Effect s i { s with pc := npc }
  /-- AdjustRelativeBase moved the base. -/
  | adjust (p : Param) (a r npc : Word) (hv : valueOf p s = .ok a)
      (hr : r.toInt = s.rb.toInt + a.toInt) (hp : npc.toInt = s.pc.toInt + 2) :
      Effect s (.adjustRelativeBase p) { s with rb := r, pc := npc }
  /-- Halt ended the run. -/
  | halt (npc : Word) (hp : npc.toInt = s.pc.toInt + 1) :
      Effect s .halt { s with engine := .halted, pc := npc }

/-! The meanings of the instructions that share a shape (41_arithmetic.md, 43_jumps.md, 44_compare.md). -/

theorem exec_add (p1 p2 p3 : Param) (s : State) :
    exec (.add p1 p2 p3) s = storeResult (fun a b => a + b) p1 p2 p3 s := rfl
theorem exec_mul (p1 p2 p3 : Param) (s : State) :
    exec (.mul p1 p2 p3) s = storeResult (fun a b => a * b) p1 p2 p3 s := rfl
theorem exec_lessThan (p1 p2 p3 : Param) (s : State) :
    exec (.lessThan p1 p2 p3) s = storeResult (fun a b => if a < b then 1 else 0) p1 p2 p3 s := rfl
theorem exec_equal (p1 p2 p3 : Param) (s : State) :
    exec (.equal p1 p2 p3) s = storeResult (fun a b => if a = b then 1 else 0) p1 p2 p3 s := rfl
theorem exec_jumpIfTrue (p1 p2 : Param) (s : State) :
    exec (.jumpIfTrue p1 p2) s = jumpIf (fun a => a != 0) p1 p2 s := rfl
theorem exec_jumpIfFalse (p1 p2 : Param) (s : State) :
    exec (.jumpIfFalse p1 p2) s = jumpIf (fun a => a == 0) p1 p2 s := rfl

/-- What the shared shape of format F3 can do. -/
theorem storeResult_effect {f : Int → Int → Int} {p1 p2 p3 : Param} {s t : State} {i : Instr}
    (hd : i.destination = some p3) (hn : i.opcode.arity = 3) (h : storeResult f p1 p2 p3 s = .next t) :
    Effect s i t := by
  rcases commitOrFault_eq_next.mp h with h | ⟨e, -, rfl⟩
  · simp only [bind_eq_ok, checkCapacity_eq_ok, nextPc_eq_ok, narrow_eq_ok] at h
    obtain ⟨a, -, b, -, c, hc, r, -, npc, hp, -, ha, h⟩ := h
    cases h
    exact .store p3 c r npc hd hn hc (by push_cast at hp; omega) ha
  · exact .fault e

/-- What the shared shape of the jumps can do. -/
theorem jumpIf_effect {taken : Word → Bool} {p1 p2 : Param} {s t : State} {i : Instr} (hn : i.opcode.arity = 2)
    (hj : ∀ a b, valueOf p1 s = .ok a → valueOf p2 s = .ok b →
      jumpTarget? i s = if taken a = true then some b else none)
    (h : jumpIf taken p1 p2 s = .next t) : Effect s i t := by
  rcases commitOrFault_eq_next.mp h with h | ⟨e, -, rfl⟩
  · simp only [bind_eq_ok] at h
    obtain ⟨a, ha, b, hb, h⟩ := h
    have hj := hj a b ha hb
    split at h
    · next ht => cases h; exact .jump b (by simp [hj, ht])
    · next ht =>
      simp only [bind_eq_ok, nextPc_eq_ok] at h
      obtain ⟨npc, hp, h⟩ := h
      cases h
      exact .fallThrough npc (by simp [hj, ht]) hn (by push_cast at hp; omega)
  · exact .fault e

/-- What an instruction can do. -/
theorem exec_effect {i : Instr} {s t : State} (h : exec i s = .next t) : Effect s i t := by
  cases i with
  | add p1 p2 p3 => rw [exec_add] at h; exact storeResult_effect rfl rfl h
  | mul p1 p2 p3 => rw [exec_mul] at h; exact storeResult_effect rfl rfl h
  | lessThan p1 p2 p3 => rw [exec_lessThan] at h; exact storeResult_effect rfl rfl h
  | equal p1 p2 p3 => rw [exec_equal] at h; exact storeResult_effect rfl rfl h
  | jumpIfTrue p1 p2 =>
    rw [exec_jumpIfTrue] at h
    refine jumpIf_effect rfl (fun a b ha hb => ?_) h
    by_cases h0 : a = 0 <;> simp [jumpTarget?, ha, hb, h0]
  | jumpIfFalse p1 p2 =>
    rw [exec_jumpIfFalse] at h
    refine jumpIf_effect rfl (fun a b ha hb => ?_) h
    by_cases h0 : a = 0 <;> simp [jumpTarget?, ha, hb, h0]
  | input p =>
    unfold exec execInput at h
    rcases commitOrFault_eq_next.mp h with h | ⟨e, -, rfl⟩
    · obtain ⟨c, hc, h⟩ := bind_eq_ok.mp h
      split at h
      · next hq => cases h; exact .suspend p c hc hq
      · next v rest hq =>
        simp only [bind_eq_ok, checkCapacity_eq_ok, nextPc_eq_ok] at h
        obtain ⟨npc, hp, -, ha, h⟩ := h
        cases h
        exact .input p c v npc rest hc hq (by push_cast at hp; omega) ha
    · exact .fault e
  | output p =>
    unfold exec execOutput at h
    rcases commitOrFault_eq_next.mp h with h | ⟨e, -, rfl⟩
    · simp only [bind_eq_ok, nextPc_eq_ok] at h
      obtain ⟨a, hv, npc, hp, h⟩ := h
      cases h
      exact .output p a npc hv (by push_cast at hp; omega)
    · exact .fault e
  | adjustRelativeBase p =>
    unfold exec execAdjustRelativeBase at h
    rcases commitOrFault_eq_next.mp h with h | ⟨e, -, rfl⟩
    · simp only [bind_eq_ok, nextPc_eq_ok, narrow_eq_ok] at h
      obtain ⟨a, hv, r, hr, npc, hp, h⟩ := h
      cases h
      exact .adjust p a r npc hv hr (by push_cast at hp; omega)
    · exact .fault e
  | halt =>
    unfold exec execHalt at h
    rcases commitOrFault_eq_next.mp h with h | ⟨e, -, rfl⟩
    · simp only [bind_eq_ok, nextPc_eq_ok] at h
      obtain ⟨npc, hp, h⟩ := h
      cases h
      exact .halt npc (by push_cast at hp; omega)
    · exact .fault e

theorem storeResult_of_raise {f : Int → Int → Int} {p1 p2 p3 : Param} {s : State}
    (h : valueOf p1 s = .raise .invalidOperand ∨ valueOf p2 s = .raise .invalidOperand ∨
      addressOf p3 s = .raise .invalidOperand) :
    storeResult f p1 p2 p3 s = .next (takeFault .invalidOperand s) := by
  unfold storeResult
  cases h1 : valueOf p1 s with
  | raise e => rw [valueOf_eq_raise h1]; rfl
  | ok a =>
    cases h2 : valueOf p2 s with
    | raise e => rw [valueOf_eq_raise h2]; rfl
    | ok b =>
      cases h3 : addressOf p3 s with
      | raise e => rw [addressOf_eq_raise h3]; rfl
      | ok c => simp [h1, h2, h3] at h

theorem jumpIf_of_raise {taken : Word → Bool} {p1 p2 : Param} {s : State}
    (h : valueOf p1 s = .raise .invalidOperand ∨ valueOf p2 s = .raise .invalidOperand) :
    jumpIf taken p1 p2 s = .next (takeFault .invalidOperand s) := by
  unfold jumpIf
  cases h1 : valueOf p1 s with
  | raise e => rw [valueOf_eq_raise h1]; rfl
  | ok a =>
    cases h2 : valueOf p2 s with
    | raise e => rw [valueOf_eq_raise h2]; rfl
    | ok b => simp [h1, h2] at h

/-- Every operand is resolved before anything else: one that does not resolve is the fault the instruction takes
(60_exceptions.md R162). -/
theorem exec_of_operand_raise {i : Instr} {s : State} {f : FaultKind}
    (h : (∃ p ∈ i.sources, valueOf p s = .raise f) ∨ ∃ p, i.destination = some p ∧ addressOf p s = .raise f) :
    exec i s = .next (takeFault f s) := by
  obtain rfl : f = .invalidOperand := by
    rcases h with ⟨p, -, h⟩ | ⟨p, -, h⟩
    · exact valueOf_eq_raise h
    · exact addressOf_eq_raise h
  cases i <;> simp only [Instr.sources, Instr.destination, List.mem_cons, List.not_mem_nil, or_false, exists_eq_or_imp,
    exists_eq_left, Option.some.injEq, exists_eq_left', reduceCtorEq, false_and, exists_false, false_or] at h
  case add => rw [exec_add]; exact storeResult_of_raise (by tauto)
  case mul => rw [exec_mul]; exact storeResult_of_raise (by tauto)
  case lessThan => rw [exec_lessThan]; exact storeResult_of_raise (by tauto)
  case equal => rw [exec_equal]; exact storeResult_of_raise (by tauto)
  case jumpIfTrue => rw [exec_jumpIfTrue]; exact jumpIf_of_raise h
  case jumpIfFalse => rw [exec_jumpIfFalse]; exact jumpIf_of_raise h
  case input => simp only [exec, execInput, h, raise_bind, commitOrFault]
  case output => simp only [exec, execOutput, h, raise_bind, commitOrFault]
  case adjustRelativeBase => simp only [exec, execAdjustRelativeBase, h, raise_bind, commitOrFault]

/-- A commit or a fault entry is a next state. -/
theorem commitOrFault_next (s : State) (r : Checked FaultKind State) : ∃ t, commitOrFault s r = .next t := by
  cases r <;> exact ⟨_, rfl⟩

/-- What a step can do while RUNNING (40_engine.md R90). -/
theorem step_running {s t : State} (hr : s.engine = .running) (h : step s = .next t) :
    (∃ f, fetch s = .raise f ∧ t = endOfStep (takeFault f s)) ∨
    (∃ i u, fetch s = .ok i ∧ exec i s = .next u ∧ t = endOfStep u) := by
  unfold step at h
  simp only [hr] at h
  unfold instructionStep at h
  cases hf : fetch s with
  | raise f => simp only [hf, finish, Host.Outcome.next.injEq] at h; exact .inl ⟨f, rfl, h.symm⟩
  | ok i =>
    simp only [hf] at h
    cases he : exec i s with
    | next u => simp only [he, finish, Host.Outcome.next.injEq] at h; exact .inr ⟨i, u, rfl, he, h.symm⟩
    | fault r => cases r
    | refused r => simp [he, finish] at h

/-- What a step does in every other engine state (49_host_interface.md R141). -/
theorem step_notRunning {s : State} (hr : s.engine ≠ .running) : step s = .next (hostMove s) := by
  unfold step
  cases h : s.engine <;> first | rfl | exact absurd h hr

/-- A host's move changes only the queue, the engine state, the script and the answers (49_host_interface.md R148). -/
theorem hostMove_frame (s : State) :
    hostMove s = { s with
      inQ := (hostMove s).inQ, engine := (hostMove s).engine, pending := (hostMove s).pending,
      responses := (hostMove s).responses } := by
  obtain ⟨mem, ext, pc, rb, engine, inQ, outLog, faultCode, faultPc, config, pending, responses⟩ := s
  cases pending with
  | nil => rfl
  | cons c rest =>
    cases c with
    | run => cases engine <;> rfl
    | _ => rfl

/-- The engine state after a host's move: only RUN from IDLE or SUSPENDED changes it (40_engine.md R101). -/
theorem hostMove_engine (s : State) :
    (hostMove s).engine =
      if (s.engine = .idle ∨ s.engine = .suspended) ∧ s.pending.head? = some .run then .running else s.engine := by
  obtain ⟨mem, ext, pc, rb, engine, inQ, outLog, faultCode, faultPc, config, pending, responses⟩ := s
  cases pending with
  | nil => simp [hostMove]
  | cons c rest => cases c <;> cases engine <;> simp [hostMove, serve, enterRun]

/-! What the fetch and the resolver depend on (20_memory.md R54, 30_encoding.md R75). -/

theorem fetch_congr {s s' : State} (h1 : s.mem = s'.mem) (h2 : s.ext = s'.ext) (h3 : s.pc = s'.pc)
    (h4 : s.config = s'.config) : fetch s = fetch s' := by
  obtain ⟨mem, ext, pc, rb, engine, inQ, outLog, faultCode, faultPc, config, pending, responses⟩ := s
  obtain ⟨mem', ext', pc', rb', engine', inQ', outLog', faultCode', faultPc', config', pending', responses'⟩ := s'
  cases h1; cases h2; cases h3; cases h4; rfl

theorem addressOf_congr {s s' : State} (p : Param) (h : s.rb = s'.rb) : addressOf p s = addressOf p s' := by
  simp only [addressOf, h]

theorem valueOf_congr {s s' : State} (p : Param) (h1 : s.rb = s'.rb) (h2 : s.mem = s'.mem) :
    valueOf p s = valueOf p s' := by
  simp only [valueOf, h1, State.memRead, h2]

/-- One more step at the front of a run. -/
theorem runSteps_succ (n : Nat) {s t : State} (h : step s = .next t) : runSteps (n + 1) s = runSteps n t := by
  simp only [runSteps, h]

end Sys2Proof.Laws
end

