-- ==== Sys2Proof/Laws/Fetch.lean ====
section
/-! SUPPORT. What the fetch answers, what stored words read as, and the words of an instruction as numbers. -/

namespace Sys2Proof.Laws

open Sys2Proof.Machine

/-! The canonical word (30_encoding.md R80) as a number and as a Word. -/

theorem opcode_number_lt (op : Opcode) : op.number < 100 := by
  cases op <;> decide

theorem opcode_arity_le (op : Opcode) : op.arity ≤ 3 := by
  cases op <;> decide

theorem encodeNat_mod (i : Instr) : encodeNat i % 100 = i.opcode.number := by
  have := opcode_number_lt i.opcode
  simp only [encodeNat, canonicalNat]; omega

theorem encodeNat_div (i : Instr) : encodeNat i / 100 = modeWord (i.params.map Param.mode) := by
  have := opcode_number_lt i.opcode
  simp only [encodeNat, canonicalNat]; omega

theorem modeWord_params_lt (i : Instr) : modeWord (i.params.map Param.mode) < 10 ^ i.opcode.arity := by
  have := modeWord_lt (i.params.map Param.mode)
  rwa [List.length_map, params_length] at this

theorem encodeNat_lt (i : Instr) : encodeNat i < 100000 := by
  have h1 := opcode_number_lt i.opcode
  have h2 := modeWord_params_lt i
  have h3 : 10 ^ i.opcode.arity ≤ 10 ^ 3 := Nat.pow_le_pow_right (by norm_num) (opcode_arity_le _)
  simp only [encodeNat, canonicalNat]; omega

theorem toInt_nonneg_iff (w : Word) : 0 ≤ w.toInt ↔ w.toNat < 2 ^ 63 := by
  rw [BitVec.toInt_eq_toNat_cond]; split <;> omega

theorem toNat_encodeNat (i : Instr) : (BitVec.ofNat 64 (encodeNat i)).toNat = encodeNat i := by
  have := encodeNat_lt i
  simp only [BitVec.toNat_ofNat]; omega

theorem toInt_encodeNat (i : Instr) : 0 ≤ (BitVec.ofNat 64 (encodeNat i)).toInt := by
  have := encodeNat_lt i
  rw [toInt_nonneg_iff, toNat_encodeNat]; omega

/-! The fetch (40_engine.md R90, 30_encoding.md R74). -/

/-- At a `pc` inside the address space, the fetch is the decoder on the words there. -/
theorem fetch_of_pc {s : State} (h : 0 ≤ s.pc.toInt) :
    fetch s =
      match decode s.config.strictExcessModes (s.memRead s.pc.toNat) (s.operandWords s.pc.toNat) with
      | .ok i => .ok i
      | .raise f => .raise (faultOfDecode f) := by
  have := (toInt_range s.pc).2
  unfold fetch
  rw [if_neg (by simp only [wordMax, addrMax] at *; omega)]
  rfl

/-- When an operand address is invalid (R74). -/
theorem operandReadable_eq_false {s : State} {a : Nat} :
    s.operandReadable a = false ↔ addrMax < a ∨ (s.config.truncation = .extent ∧ s.ext ≤ a) := by
  unfold State.operandReadable
  by_cases h : a ≤ addrMax <;> by_cases h2 : a < s.ext <;> cases s.config.truncation <;> simp [h, h2] <;> omega

/-- The step while RUNNING, from the fetch and the instruction (R90). -/
theorem step_of_exec {s u : State} {i : Instr} (hr : s.engine = .running) (hf : fetch s = .ok i)
    (he : exec i s = .next u) : step s = .next (endOfStep u) := by
  unfold step; simp only [hr, instructionStep, hf, he, finish]

theorem step_of_raise {s : State} {f : FaultKind} (hr : s.engine = .running) (hf : fetch s = .raise f) :
    step s = .next (endOfStep (takeFault f s)) := by
  unfold step; simp only [hr, instructionStep, hf, finish]

/-! Stored words. -/

theorem storeWords_pc (s : State) (a : Nat) (ws : List Word) : (s.storeWords a ws).pc = s.pc := by
  induction ws generalizing s a with
  | nil => rfl
  | cons w ws ih => unfold State.storeWords; split <;> [exact ih _ _; rfl]

theorem storeWords_config (s : State) (a : Nat) (ws : List Word) : (s.storeWords a ws).config = s.config := by
  induction ws generalizing s a with
  | nil => rfl
  | cons w ws ih => unfold State.storeWords; split <;> [exact ih _ _; rfl]

theorem storeWords_read_below (s : State) (a b : Nat) (ws : List Word) (h : b < a) :
    (s.storeWords a ws).memRead b = s.memRead b := by
  induction ws generalizing s a with
  | nil => rfl
  | cons w ws ih =>
    unfold State.storeWords; split
    · rw [ih _ _ (by omega), memRead_memWrite_other _ _ _ _ (by omega)]
    · rfl

/-- Each stored word is read back at its address. -/
theorem storeWords_read {s : State} {a j : Nat} {ws : List Word} {w : Word} (h : a + ws.length ≤ addrMax + 1)
    (hj : ws[j]? = some w) : (s.storeWords a ws).memRead (a + j) = w := by
  induction ws generalizing s a j with
  | nil => simp at hj
  | cons v ws ih =>
    simp only [List.length_cons] at h
    unfold State.storeWords; rw [if_pos (by omega)]
    cases j with
    | zero =>
      simp only [List.getElem?_cons_zero, Option.some.injEq] at hj
      rw [storeWords_read_below _ _ _ _ (by omega), Nat.add_zero, memRead_memWrite_same, hj]
    | succ j =>
      rw [(by omega : a + (j + 1) = a + 1 + j)]
      exact ih (by omega) (by simpa using hj)

theorem storeWords_ext_mono (s : State) (a : Nat) (ws : List Word) : s.ext ≤ (s.storeWords a ws).ext := by
  induction ws generalizing s a with
  | nil => exact le_rfl
  | cons w ws ih =>
    unfold State.storeWords; split
    · exact le_trans (le_max_left s.ext (a + 1)) (ih (s.memWrite a w) (a + 1))
    · exact le_rfl

/-- The extent reaches past every stored word. -/
theorem storeWords_ext {s : State} {a : Nat} {ws : List Word} (h : a + ws.length ≤ addrMax + 1) (hne : ws ≠ []) :
    a + ws.length ≤ (s.storeWords a ws).ext := by
  induction ws generalizing s a with
  | nil => exact absurd rfl hne
  | cons w ws ih =>
    simp only [List.length_cons] at h ⊢
    unfold State.storeWords; rw [if_pos (by omega)]
    cases ws with
    | nil => exact le_trans (by simp) (storeWords_ext_mono (s.memWrite a w) (a + 1) [])
    | cons w' ws => have := ih (s := s.memWrite a w) (a := a + 1) (by omega) (by simp); omega

end Sys2Proof.Laws
end

