-- ==== Sys2Proof/Laws/Independence.lean ====
section
/-! SUPPORT. What an instruction does not depend on: the host's script and answers, and the words at the tail of the input queue
(40_engine.md section 4). -/

namespace Sys2Proof.Laws

open Sys2Proof.Machine

/-- `s` with more words at the tail of the queue, and another script and other answers. -/
def along (q : List Word) (ps : List HostCommand) (rs : List HostResponse) (s : State) : State :=
  { s with inQ := s.inQ ++ q, pending := ps, responses := rs }

variable (q : List Word) (ps : List HostCommand) (rs : List HostResponse)

theorem fetch_along (s : State) : fetch (along q ps rs s) = fetch s :=
  fetch_congr rfl rfl rfl rfl

theorem valueOf_along (p : Param) (s : State) : valueOf p (along q ps rs s) = valueOf p s :=
  valueOf_congr p rfl rfl

theorem addressOf_along (p : Param) (s : State) : addressOf p (along q ps rs s) = addressOf p s :=
  addressOf_congr p rfl

theorem nextPc_along (n : Nat) (s : State) : nextPc (along q ps rs s) n = nextPc s n := rfl

theorem checkCapacity_along (c : Nat) (s : State) : checkCapacity (along q ps rs s) c = checkCapacity s c := rfl

theorem commit_along {s t : State} {r r' : Checked FaultKind State}
    (hr : r' = r.bind fun u => .ok (along q ps rs u)) (h : commitOrFault s r = .next t) :
    commitOrFault (along q ps rs s) r' = .next (along q ps rs t) := by
  subst hr
  cases r <;> simp only [commitOrFault, Host.Outcome.next.injEq] at h <;> subst h <;> rfl

theorem bind_assoc {ε α β γ : Type} (x : Checked ε α) (k : α → Checked ε β) (l : β → Checked ε γ) :
    (x.bind k).bind l = x.bind fun a => (k a).bind l := by
  cases x <;> rfl

theorem storeResult_along {f : Int → Int → Int} {p1 p2 p3 : Param} {s t : State}
    (h : storeResult f p1 p2 p3 s = .next t) :
    storeResult f p1 p2 p3 (along q ps rs s) = .next (along q ps rs t) := by
  refine commit_along q ps rs ?_ h
  simp only [valueOf_along, addressOf_along, nextPc_along, checkCapacity_along, bind_assoc, ok_bind]
  rfl

theorem jumpIf_along {taken : Word → Bool} {p1 p2 : Param} {s t : State} (h : jumpIf taken p1 p2 s = .next t) :
    jumpIf taken p1 p2 (along q ps rs s) = .next (along q ps rs t) := by
  refine commit_along q ps rs ?_ h
  simp only [valueOf_along, nextPc_along, bind_assoc]
  congr; funext a; congr; funext b
  split
  · rfl
  · simp only [bind_assoc, ok_bind]; rfl

/-- An instruction that does not suspend, or any instruction where no words are added, does the same beside another script. -/
theorem exec_along {i : Instr} {s t : State} (hs : q = [] ∨ t.engine ≠ .suspended) (h : exec i s = .next t) :
    exec i (along q ps rs s) = .next (along q ps rs t) := by
  cases i with
  | add => rw [exec_add] at h ⊢; exact storeResult_along q ps rs h
  | mul => rw [exec_mul] at h ⊢; exact storeResult_along q ps rs h
  | lessThan => rw [exec_lessThan] at h ⊢; exact storeResult_along q ps rs h
  | equal => rw [exec_equal] at h ⊢; exact storeResult_along q ps rs h
  | jumpIfTrue => rw [exec_jumpIfTrue] at h ⊢; exact jumpIf_along q ps rs h
  | jumpIfFalse => rw [exec_jumpIfFalse] at h ⊢; exact jumpIf_along q ps rs h
  | output p =>
    simp only [exec, execOutput] at h ⊢
    refine commit_along q ps rs ?_ h
    simp only [valueOf_along, nextPc_along, bind_assoc, ok_bind]
    rfl
  | adjustRelativeBase p =>
    simp only [exec, execAdjustRelativeBase] at h ⊢
    refine commit_along q ps rs ?_ h
    simp only [valueOf_along, nextPc_along, bind_assoc, ok_bind]
    rfl
  | halt =>
    simp only [exec, execHalt] at h ⊢
    refine commit_along q ps rs ?_ h
    simp only [nextPc_along, bind_assoc, ok_bind]
    rfl
  | input p =>
    simp only [exec, execInput] at h ⊢
    cases hc : addressOf p s with
    | raise f =>
      rw [hc] at h; rw [addressOf_along, hc]
      exact commit_along q ps rs rfl h
    | ok c =>
      rw [hc] at h; rw [addressOf_along, hc]
      simp only [ok_bind] at h ⊢
      cases hq : s.inQ with
      | nil =>
        rw [hq] at h
        simp only [commitOrFault, Host.Outcome.next.injEq] at h
        have hq' : q = [] := hs.resolve_right fun hn => hn (by rw [← h])
        have : (along q ps rs s).inQ = [] := by simp [along, hq, hq']
        simp only [this, commitOrFault, ← h]
        simp [along, hq, hq']
      | cons v rest =>
        rw [hq] at h
        have : (along q ps rs s).inQ = v :: (rest ++ q) := by simp [along, hq]
        rw [this]
        refine commit_along q ps rs ?_ h
        simp only [nextPc_along, checkCapacity_along, bind_assoc, ok_bind]
        rfl

end Sys2Proof.Laws
end

