-- ==== Sys2Proof/Laws/PerInstr.lean ====
section
/-! SUPPORT. A statement about every instruction as syntax, one lemma per constructor. -/

namespace Sys2Proof.Laws.EncodedShape

/-- The canonical words of an instruction (30_encoding.md R65, R80, R84): as many as its arity and one more; the first is a
small non-negative word whose two low decimal digits are the opcode, and the rest are the operand words. -/
def Statement (i : Instr) : Prop :=
  (encode i).length = i.opcode.arity + 1 ∧ (encode i).tail = i.params.map Param.value ∧
  encodeNat i % 100 = i.opcode.number ∧ encodeNat i < 22300

theorem opcode_number_lt (op : Opcode) : op.number < 100 := by
  cases op <;> decide

theorem modeWord_three (p1 p2 p3 : Param) : modeWord [p1.mode, p2.mode, p3.mode] ≤ 222 := by
  cases p1.mode <;> cases p2.mode <;> cases p3.mode <;> decide

theorem modeWord_two (p1 p2 : Param) : modeWord [p1.mode, p2.mode] ≤ 22 := by
  cases p1.mode <;> cases p2.mode <;> decide

theorem modeWord_one (p1 : Param) : modeWord [p1.mode] ≤ 2 := by
  cases p1.mode <;> decide

theorem ofThree {i : Instr} {p1 p2 p3 : Param} (hp : i.params = [p1, p2, p3]) (ha : i.opcode.arity = 3) : Statement i := by
  have hn := opcode_number_lt i.opcode
  have := modeWord_three p1 p2 p3
  refine ⟨by simp [encode, hp, ha], by simp [encode], ?_, ?_⟩ <;>
    simp only [encodeNat, canonicalNat, hp, List.map_cons, List.map_nil] <;> omega

theorem ofTwo {i : Instr} {p1 p2 : Param} (hp : i.params = [p1, p2]) (ha : i.opcode.arity = 2) : Statement i := by
  have hn := opcode_number_lt i.opcode
  have := modeWord_two p1 p2
  refine ⟨by simp [encode, hp, ha], by simp [encode], ?_, ?_⟩ <;>
    simp only [encodeNat, canonicalNat, hp, List.map_cons, List.map_nil] <;> omega

theorem ofOne {i : Instr} {p1 : Param} (hp : i.params = [p1]) (ha : i.opcode.arity = 1) : Statement i := by
  have hn := opcode_number_lt i.opcode
  have := modeWord_one p1
  refine ⟨by simp [encode, hp, ha], by simp [encode], ?_, ?_⟩ <;>
    simp only [encodeNat, canonicalNat, hp, List.map_cons, List.map_nil] <;> omega

theorem add (p1 p2 p3 : Param) : Statement (.add p1 p2 p3) := ofThree rfl rfl
theorem mul (p1 p2 p3 : Param) : Statement (.mul p1 p2 p3) := ofThree rfl rfl
theorem input (p1 : Param) : Statement (.input p1) := ofOne rfl rfl
theorem output (p1 : Param) : Statement (.output p1) := ofOne rfl rfl
theorem jumpIfTrue (p1 p2 : Param) : Statement (.jumpIfTrue p1 p2) := ofTwo rfl rfl
theorem jumpIfFalse (p1 p2 : Param) : Statement (.jumpIfFalse p1 p2) := ofTwo rfl rfl
theorem lessThan (p1 p2 p3 : Param) : Statement (.lessThan p1 p2 p3) := ofThree rfl rfl
theorem equal (p1 p2 p3 : Param) : Statement (.equal p1 p2 p3) := ofThree rfl rfl
theorem adjustRelativeBase (p1 : Param) : Statement (.adjustRelativeBase p1) := ofOne rfl rfl
theorem halt : Statement .halt := by refine ⟨?_, ?_, ?_, ?_⟩ <;> decide

end Sys2Proof.Laws.EncodedShape
end

