-- ==== Sys2Proof/Tests/Slice0.lean ====
section
/-! SUPPORT. The model's own tests. Expected results are those of 95_test_vectors.md (its vector named in each docstring) or read
from the rule named. Then, for each obligation with hypotheses, a witness that meets them. -/

namespace Sys2Proof.Tests

open Sys2Proof.Machine

/-! ## Helpers -/

/-- LOAD of `ws` with other parameters, RUN entered. -/
def runningWith (cfg : Config) (ws : List Int) : State :=
  { (load cfg ws).getD State.reset with engine := .running }

/-- LOAD of `ws`, RUN entered. -/
def running (ws : List Int) : State :=
  runningWith Config.spec ws

/-- A field of the state after one step. -/
def after {α : Type} (f : State → α) (s : State) : Option α :=
  (nextState? (step s)).map f

/-- A machine between runs with one transaction to serve. -/
def between (e : EngineState) (c : HostCommand) : State :=
  { State.reset with engine := e, pending := [c] }

/-- A machine that admits writes below address 2 only. -/
def tight (ws : List Int) : State :=
  runningWith { Config.spec with memLimit := .addressesBelow 2 } ws

/-- A machine whose instruction stands at the last addresses: the default advance overflows. -/
def atTop (pc : Int) : State :=
  { running [] with pc := BitVec.ofInt 64 pc }

/-! ## WellFormed: an ill-formed term for each destination, which the check refuses (20_memory.md R53) -/

theorem test_wellFormed_add : (Instr.add ⟨1, .imm⟩ ⟨1, .imm⟩ ⟨1, .imm⟩).wellFormed = false := by decide
theorem test_wellFormed_mul : (Instr.mul ⟨1, .pos⟩ ⟨1, .rel⟩ ⟨1, .imm⟩).wellFormed = false := by decide
theorem test_wellFormed_input : (Instr.input ⟨0, .imm⟩).wellFormed = false := by decide
theorem test_wellFormed_lessThan : (Instr.lessThan ⟨1, .pos⟩ ⟨1, .pos⟩ ⟨1, .imm⟩).wellFormed = false := by decide
theorem test_wellFormed_equal : (Instr.equal ⟨1, .pos⟩ ⟨1, .pos⟩ ⟨1, .imm⟩).wellFormed = false := by decide
theorem test_wellFormed_accepts : (Instr.jumpIfTrue ⟨1, .imm⟩ ⟨7, .imm⟩).wellFormed = true := by decide

/-! ## Decoding: each constructor's word from its encoding (30_encoding.md R66, R67, R69, R80) -/

/-- 21101 = 1 + 100*1 + 1000*1 + 10000*2. -/
theorem test_decode_add : decode false 21101 [2, 3, 5, 99] = .ok (.add ⟨2, .imm⟩ ⟨3, .imm⟩ ⟨5, .rel⟩) := by decide
/-- 1002 = 2 + 1000*1. -/
theorem test_decode_mul : decode false 1002 [4, 3, 4, 33] = .ok (.mul ⟨4, .pos⟩ ⟨3, .imm⟩ ⟨4, .pos⟩) := by decide
/-- 203 = 3 + 100*2. -/
theorem test_decode_input : decode false 203 [-1] = .ok (.input ⟨-1, .rel⟩) := by decide
/-- 104 = 4 + 100*1. -/
theorem test_decode_output : decode false 104 [-5] = .ok (.output ⟨-5, .imm⟩) := by decide
/-- 1105 = 5 + 100*1 + 1000*1. -/
theorem test_decode_jumpIfTrue : decode false 1105 [1, 7] = .ok (.jumpIfTrue ⟨1, .imm⟩ ⟨7, .imm⟩) := by decide
/-- 1206 = 6 + 100*2 + 1000*1. -/
theorem test_decode_jumpIfFalse : decode false 1206 [2, 26] = .ok (.jumpIfFalse ⟨2, .rel⟩ ⟨26, .imm⟩) := by decide
/-- 22107 = 7 + 100*1 + 1000*2 + 10000*2. -/
theorem test_decode_lessThan :
    decode false 22107 [0, 0, 2] = .ok (.lessThan ⟨0, .imm⟩ ⟨0, .rel⟩ ⟨2, .rel⟩) := by decide
/-- 8: every digit missing, so POS. -/
theorem test_decode_equal : decode false 8 [100, 200, 5] = .ok (.equal ⟨100, .pos⟩ ⟨200, .pos⟩ ⟨5, .pos⟩) := by decide
/-- 209 = 9 + 100*2. -/
theorem test_decode_adjust : decode false 209 [-3] = .ok (.adjustRelativeBase ⟨-3, .rel⟩) := by decide
/-- 99, arity 0. -/
theorem test_decode_halt : decode false 99 [] = .ok .halt := by decide

/-- D21, P5: truncation is checked before the mode digits. -/
theorem test_decode_order : decode false 301 [0, 0] = .raise (.truncatedInstruction 3) := by decide
/-- D18: a negative word is never Halt. -/
theorem test_decode_negative : decode false (-99) [] = .raise (.unknownOpcode (-99)) := by decide
/-- D20: the third mode digit. -/
theorem test_decode_thirdMode : decode false 30001 [0, 0, 0, 99] = .raise (.invalidMode 3 3) := by decide
/-- The encoder examples of 30_encoding.md section 3. -/
theorem test_encode : encode (.lessThan ⟨1, .imm⟩ ⟨2, .rel⟩ ⟨3, .rel⟩) = [22107, 1, 2, 3] := by decide
/-- A row's bits with no bits for the operand words: operand words of 0. -/
theorem test_tableWord : decodeTableWord 64 1 = some (.add ⟨0, .pos⟩ ⟨0, .pos⟩ ⟨0, .pos⟩) := by decide

/-- P1 of section 4, assembled. -/
theorem test_assemble :
    assemble [.op .input [.pos (.num 20)], .label "loop", .op .jumpIfFalse [.pos (.num 20), .imm (.num 14)],
      .op .output [.pos (.num 20)], .op .add [.pos (.num 20), .imm (.num (-1)), .pos (.num 20)],
      .op .jumpIfTrue [.imm (.num 1), .imm (.label "loop")], .op .halt []] =
    some [3, 20, 1006, 20, 14, 4, 20, 1001, 20, -1, 20, 1105, 1, 2, 99] := by decide
/-- A non-canonical Halt prints as a raw word (R82). -/
theorem test_disassemble : disassemble 199 [] = ".word 199" ∧ disassemble 204 [-2] = "out [rb-2]" := by
  constructor <;> decide
/-- R81 writes Halt as `hlt`, and the other operand forms as `[n]` and `#n`. -/
theorem test_disassemble_forms : disassemble 99 [] = "hlt" ∧ disassemble 1005 [5, -7] = "jt [5], #-7" := by
  constructor <;> decide

/-! ## One step of each instruction -/

/-- A2: the destination aliases both sources. -/
theorem test_add_alias : after (fun t => (t.memRead 5, t.ext, t.pc)) (running [1, 5, 5, 5, 99, 21]) = some (42, 6, 4) := by
  decide
/-- A4: `2^62 + 2^62` overflows, and the cell keeps 1101. -/
theorem test_add_overflow :
    after (fun t => (t.engine, t.faultCode, t.faultPc, t.memRead 0))
      (running [1101, 4611686018427387904, 4611686018427387904, 0, 99]) =
    some (.faulted, some .overflow, 0, 1101) := by decide
/-- M2. -/
theorem test_mul_signs : after (fun t => t.memRead 0) (running [1102, -3, -4, 0, 99]) = some 12 := by decide
/-- M5: `WORD_MIN * -1` overflows. -/
theorem test_mul_overflow :
    after (fun t => t.faultCode) (running [1102, -9223372036854775808, -1, 0, 99]) = some (some .overflow) := by decide
/-- I7: the Input writes its own operand word. -/
theorem test_input_pops :
    after (fun t => (t.memRead 1, t.inQ, t.pc)) { running [3, 1, 99] with inQ := [4, 6] } = some (4, [6], 2) := by decide
/-- I4: no pop on a fault. -/
theorem test_input_fault :
    after (fun t => (t.faultCode, t.inQ)) { running [103, 0, 99] with inQ := [5] } = some (some .invalidOperand, [5]) := by
  decide
/-- O4: a Relative operand with `rb = 3` reads `M[1]`. -/
theorem test_output_relative :
    after (fun t => (t.outLog, t.pc)) { running [204, -2, 99] with rb := 3 } = some ([-2], 2) := by decide
/-- O2: a read beyond the extent gives 0 and does not extend. -/
theorem test_output_beyond : after (fun t => (t.outLog, t.ext)) (running [4, 100, 99]) = some ([0], 3) := by decide
/-- J3: a negative value is true. -/
theorem test_jumpIfTrue_negative : after (fun t => t.pc) (running [1105, -1, 7, 104, 1, 99]) = some 7 := by decide
/-- J7: the target is resolved although the jump is not taken. -/
theorem test_jumpIfTrue_target :
    after (fun t => t.faultCode) (running [105, 0, -1, 99]) = some (some .invalidOperand) := by decide
/-- J4. -/
theorem test_jumpIfFalse_taken : after (fun t => t.pc) (running [1106, 0, 7, 104, 1, 99]) = some 7 := by decide
/-- J5. -/
theorem test_jumpIfFalse_notTaken : after (fun t => t.pc) (running [1106, 3, 7, 104, 1, 99]) = some 3 := by decide
/-- C3: the comparison is signed. -/
theorem test_lessThan_signed :
    after (fun t => t.memRead 5) (running [1107, -9223372036854775808, 9223372036854775807, 5, 99]) = some 1 := by decide
/-- C2. -/
theorem test_lessThan_equal : after (fun t => t.memRead 5) (running [1107, 3, 3, 5, 99]) = some 0 := by decide
/-- C6: two unwritten cells compare equal. -/
theorem test_equal_unwritten : after (fun t => t.memRead 5) (running [8, 100, 200, 5, 99]) = some 1 := by decide
/-- C5. -/
theorem test_equal_differs : after (fun t => t.memRead 5) (running [1108, 8, 9, 5, 99]) = some 0 := by decide
/-- R2, its second step: `arb [rb-3]` reads with the old base. -/
theorem test_adjust_oldBase :
    after (fun t => t.rb) { running [109, 5, 209, -3, 99] with pc := 2, rb := 5 } = some 214 := by decide
/-- R4, its second step: `WORD_MIN - 1` overflows. -/
theorem test_adjust_overflow :
    after (fun t => (t.faultCode, t.faultPc))
      { running [109, 5, 109, -1, 99] with pc := 2, rb := BitVec.ofInt 64 (-9223372036854775808) } =
    some (some .overflow, 2) := by decide
/-- H2. -/
theorem test_halt : after (fun t => (t.engine, t.pc, t.responses)) (running [1199]) = some (.halted, 1, [.runHalted]) := by
  decide
/-- H3: RUN on a halted machine takes no step. -/
theorem test_halt_again :
    after (fun t => (t.engine, t.responses)) (between .halted .run) = some (.halted, [.runHalted]) := by decide

/-- J6: a negative `pc` faults at the next fetch, and FAULT_PC holds it. -/
theorem test_invalidPc :
    after (fun t => (t.faultCode, t.faultPc)) { running [99] with pc := -3 } = some (some .invalidPc, -3) := by decide
/-- V1.7: PEEK of a hole, of an address beyond the extent, and of a negative one. -/
theorem test_peek :
    ({ running [1101] with ext := 1000001 } : State).peek 999999 = .peek 0 true ∧
    ({ running [1101] with ext := 1000001 } : State).peek 2000000 = .peek 0 false ∧
    State.reset.peek (-1) = .peekInvalid := by decide
/-- The instruction placed at reset is fetched and runs. -/
theorem test_withFetchWord : after (fun t => t.engine) (State.reset.withFetchWord 64 99) = some .halted := by decide

/-! ## Witnesses: for each obligation with hypotheses, a concrete input that meets them, clause by clause -/

theorem test_witness_LoadConstructsMachine :
    (∀ w ∈ [wordMin, wordMax], wordMin ≤ w ∧ w ≤ wordMax) ∧ ¬(wordMin ≤ wordMax + 1 ∧ wordMax + 1 ≤ wordMax) ∧
    addrMax + 1 < (List.replicate (addrMax + 2) (0 : Int)).length ∧
    after (fun t => t.engine) State.reset = some .idle := by
  refine ⟨by decide, by decide, ?_, by decide⟩
  rw [List.length_replicate]; omega

theorem test_witness_DecodesExactlyAliases :
    decode false 10099 [] = .ok .halt ∧ decode true 99 [7] = .ok .halt ∧ decode true 10099 [] ≠ .ok .halt := by decide

theorem test_witness_UnknownOpcodeExactly :
    (-1 : Word).toInt < 0 ∧ (10 : Word).toInt % 100 ∉ [1, 2, 3, 4, 5, 6, 7, 8, 9, 99] ∧ (0 : Word).toInt = 0 := by decide

/-- The lowest bad position first, in the middle and last; excess digits; all used digits legal at their largest. -/
theorem test_witness_ModeDigitsChecked :
    ((1301 : Word).toNat % 100 = Opcode.add.number ∧ 2 < digit 0 ((1301 : Word).toNat / 100)) ∧
    ((30001 : Word).toNat % 100 = Opcode.add.number ∧ (∀ j, j < 2 → digit j ((30001 : Word).toNat / 100) ≤ 2) ∧
      2 < digit 2 ((30001 : Word).toNat / 100)) ∧
    ((122201 : Word).toNat % 100 = Opcode.add.number ∧ (∀ j, j < 3 → digit j ((122201 : Word).toNat / 100) ≤ 2) ∧
      (122201 : Word).toNat / 100 / 10 ^ Opcode.add.arity ≠ 0) ∧
    ((∀ j, j < 3 → digit j ((22201 : Word).toNat / 100) ≤ 2) ∧
      (22201 : Word).toNat / 100 / 10 ^ Opcode.add.arity = 0) := by decide

/-- One word short of the extent; the last operand word just inside it; and under NEVER at the top of the address space. -/
theorem test_witness_TruncationFollowsPolicy :
    fetch (running [1, 0, 0]) = .raise .truncatedInstruction ∧
    fetch (running [1, 0, 0, 0]) = .ok (.add ⟨0, .pos⟩ ⟨0, .pos⟩ ⟨0, .pos⟩) ∧
    fetch ({ runningWith { Config.spec with truncation := .never } [] with
      mem := [(addrMax, 104)], pc := BitVec.ofNat 64 addrMax } : State) = .raise .truncatedInstruction ∧
    fetch (runningWith { Config.spec with truncation := .never } [1]) = .ok (.add ⟨0, .pos⟩ ⟨0, .pos⟩ ⟨0, .pos⟩) := by
  decide

/-- An instruction at address 0, and one that ends at the last address. -/
theorem test_witness_StoredEncodingIsFetched :
    0 ≤ State.reset.pc.toInt ∧ State.reset.pc.toNat + Opcode.add.arity ≤ addrMax ∧
    0 ≤ (atTop 9223372036854775804).pc.toInt ∧ (atTop 9223372036854775804).pc.toNat + Opcode.add.arity ≤ addrMax := by
  decide

/-- A program with an instruction whose operand is a label, and a `.word` line with each end of the Word range. -/
def labelled : List AsmLine :=
  [.op .jumpIfTrue [.imm (.num 1), .imm (.label "end")], .words [.num wordMin, .num wordMax], .label "end", .op .halt []]

theorem test_assemble_labelled :
    assemble labelled = some [1105, 1, 5, BitVec.ofInt 64 wordMin, BitVec.ofInt 64 wordMax, 99] ∧ asmLength labelled = 6 := by
  decide

/-- Its labels are distinct. -/
theorem test_witness_AssemblerEmitsCanonicalWords_labels (before after : List AsmLine) (name : String)
    (e : labelled = before ++ .label name :: after) : AsmLine.label name ∉ before := by
  rcases before with _ | ⟨a, _ | ⟨b, _ | ⟨c, _ | ⟨d, before⟩⟩⟩⟩ <;> simp [labelled] at e
  obtain ⟨rfl, rfl, -⟩ := e
  simp

/-- Everything in it stands for some Word, its operand counts fit, and a line of each kind stands in it. -/
theorem test_witness_AssemblerEmitsCanonicalWords :
    ValueMeans labelled (.label "end") 5 ∧ OperandMeans labelled (.imm (.label "end")) 5 ∧
    (∀ l ∈ labelled, LineMeans labelled l) ∧
    (∀ opc operands, .op opc operands ∈ labelled → operands.length = opc.arity ∧
      ∀ o ∈ operands, ∀ n, o.mode = .rel → o.value = .num n → 0 ≤ n) ∧
    labelled = [] ++ .op .jumpIfTrue [.imm (.num 1), .imm (.label "end")] :: labelled.tail ∧
    labelled = labelled.take 1 ++ .words [.num wordMin, .num wordMax] :: labelled.drop 2 := by
  have he : ValueMeans labelled (.label "end") 5 := ⟨labelled.take 2, [.op .halt []], rfl, by decide⟩
  refine ⟨he, ⟨5, he, by decide⟩, fun l h => ?_, fun opc operands h => ?_, rfl, rfl⟩
  · simp only [labelled, List.mem_cons, List.not_mem_nil, or_false] at h
    rcases h with rfl | rfl | rfl | rfl
    · intro o ho
      simp only [List.mem_cons, List.not_mem_nil, or_false] at ho
      rcases ho with rfl | rfl
      · exact ⟨1, 1, show (1 : Int) = 1 by decide, by decide⟩
      · exact ⟨5, 5, he, by decide⟩
    · intro v hv
      simp only [List.mem_cons, List.not_mem_nil, or_false] at hv
      rcases hv with rfl | rfl
      · exact ⟨BitVec.ofInt 64 wordMin, show _ = wordMin by decide⟩
      · exact ⟨BitVec.ofInt 64 wordMax, show _ = wordMax by decide⟩
    · trivial
    · intro o ho; simp at ho
  · simp only [labelled, List.mem_cons, AsmLine.op.injEq, reduceCtorEq, List.not_mem_nil, or_false, false_or] at h
    rcases h with ⟨rfl, rfl⟩ | ⟨rfl, rfl⟩ <;> simp [Opcode.arity, AsmOperand.mode]

/-- R81's four operand forms with a label in place of `n`: only `[rb-name]` has the word `-address`. -/
theorem test_assemble_label_forms :
    assemble [.words [.num 0], .label "x", .op .add [.relMinus (.label "x"), .relPlus (.label "x"), .pos (.label "x")],
      .op .output [.relMinus (.num 3)], .op .output [.imm (.label "x")]] = some [0, 2201, -1, 1, 1, 204, -3, 104, 1] := by
  decide

/-- The ends of `[rb-n]`: the least Word is `[rb-n]`'s word, and the `n` one past it stands for no Word. -/
theorem test_witness_OperandMeans_relMinus :
    OperandMeans [] (.relMinus (.num (wordMax + 1))) (BitVec.ofInt 64 wordMin) ∧
    ∀ w, ¬OperandMeans [] (.relMinus (.num (wordMax + 2))) w := by
  refine ⟨⟨wordMax + 1, rfl, by decide⟩, fun w h => ?_⟩
  obtain ⟨n, rfl, h⟩ := h
  have h : w.toInt = -(wordMax + 2) := h
  have h1 := (Laws.toInt_range w).1
  have h2 : wordMin = -(wordMax + 1) := by decide
  omega

/-- A non-canonical word, with and without operand words, and an illegal one: no instruction's canonical word. -/
theorem test_witness_AssemblerEmitsCanonicalWords_word :
    (∀ i, (199 : Word).toNat ≠ encodeNat i) ∧ (∀ i, (100001 : Word).toNat ≠ encodeNat i) ∧
    (∀ i, (-1 : Word).toNat ≠ encodeNat i) := by
  refine ⟨fun i h => ?_, fun i h => ?_, fun i h => ?_⟩ <;> have h1 := Laws.encodeNat_lt i
  · have h2 := Laws.encodeNat_mod i
    rw [← h] at h2
    cases i <;> simp [Instr.opcode, Opcode.number] at h2
    exact absurd h (by decide)
  · rw [← h] at h1; exact absurd h1 (by decide)
  · rw [← h] at h1; exact absurd h1 (by decide)

/-- Each side of the sign in `[rb+n]` and `[rb-n]`. -/
theorem test_witness_DisassemblerPrintsNotation :
    0 ≤ (0 : Word).toInt ∧ (-1 : Word).toInt < 0 ∧ (BitVec.ofInt 64 wordMin).toInt < 0 ∧
    Param.text ⟨BitVec.ofInt 64 wordMin, .rel⟩ = "[rb-9223372036854775808]" := by
  refine ⟨by decide, by decide, by decide, by decide⟩

/-- A label defined twice, used in `.word` and in an instruction; an undefined label; a number past the Word range; a wrong number
of operands; one operand word short of the arity. -/
theorem test_witness_AssemblerChoices :
    assemble [.label "a", .words [.label "a"], .label "a", .op .output [.pos (.label "a")]] = some [0, 4, 0] ∧
    AsmLine.label "a" ∉ ([] : List AsmLine) ∧
    ¬LineMeans [.words [.label "b"]] (.words [.label "b"]) ∧ ¬LineMeans [] (.words [.num (wordMax + 1)]) ∧
    ([] : List AsmOperand).length ≠ Opcode.add.arity ∧
    ([0, 0] : List Word).length < Opcode.add.arity ∧ disassemble 1 [0, 0] = ".word 1" := by
  refine ⟨by decide, by decide, fun h => ?_, fun h => ?_, by decide, by decide, by decide⟩
  · obtain ⟨w, before, after, e, -⟩ := h (.label "b") (by simp)
    rcases before with _ | ⟨b, _ | ⟨c, before⟩⟩ <;> simp at e
  · obtain ⟨w, h⟩ := h (.num (wordMax + 1)) (by simp)
    have h : w.toInt = wordMax + 1 := h
    have := (Laws.toInt_range w).2
    omega

/-- A `pc` just below the address space; a word that decodes; a word that does not. -/
theorem test_witness_StepRunsDecodedInstruction :
    (running []).engine = .running ∧ (atTop (-1)).pc.toInt < 0 ∧
    (running [99]).decodeAt 0 = .ok .halt ∧ (running [0]).decodeAt 0 = .raise (.unknownOpcode 0) := by decide

/-- The clauses about a raise inside Execute: in ValueOf of the last source, in AddressOf, and past the resolver. -/
theorem test_witness_StepRunsDecodedInstruction_execute :
    (running [101, 0, -1, 0]).decodeAt 0 = .ok (.add ⟨0, .imm⟩ ⟨-1, .pos⟩ ⟨0, .pos⟩) ∧
    (⟨-1, .pos⟩ : Param) ∈ (Instr.add ⟨0, .imm⟩ ⟨-1, .pos⟩ ⟨0, .pos⟩).sources ∧
    valueOf ⟨-1, .pos⟩ (running [101, 0, -1, 0]) = .raise .invalidOperand ∧
    (running [103, 0]).decodeAt 0 = .ok (.input ⟨0, .imm⟩) ∧ (Instr.input ⟨0, .imm⟩).destination = some ⟨0, .imm⟩ ∧
    addressOf ⟨0, .imm⟩ (running [103, 0]) = .raise .invalidOperand ∧
    (tight [1101, 2, 3, 5]).decodeAt 0 = .ok (.add ⟨2, .imm⟩ ⟨3, .imm⟩ ⟨5, .pos⟩) ∧
    (nextState? (exec (.add ⟨2, .imm⟩ ⟨3, .imm⟩ ⟨5, .pos⟩) (tight [1101, 2, 3, 5]))).map State.engine = some .faulted := by
  decide

/-- Each row of the table: a run entered, a run that goes on, suspends, halts, faults; the two terminal states. -/
theorem test_witness_EngineTransitions :
    after (fun t => t.engine) (between .idle .run) = some .running ∧
    after (fun t => t.engine) (between .suspended .run) = some .running ∧
    after (fun t => t.engine) (between .suspended (.feed 1)) = some .suspended ∧
    after (fun t => t.engine) (between .halted .run) = some .halted ∧
    after (fun t => t.engine) (between .faulted .run) = some .faulted ∧
    after (fun t => t.engine) (running [104, 1]) = some .running ∧
    after (fun t => t.engine) (running [3, 0]) = some .suspended ∧
    after (fun t => t.engine) (running [99]) = some .halted ∧
    after (fun t => t.engine) (running [0]) = some .faulted ∧
    (load Config.spec []).map State.engine = some .idle := by decide

/-- A running state and another extent, both past the instruction; and an extent that the fetch does see. -/
theorem test_witness_ExtentObservedOnlyByTruncation :
    (running [104, 1]).engine = .running ∧ after (fun t => t.outLog) (running [104, 1]) = some [1] ∧
    fetch (running [104, 1]) = .ok (.output ⟨1, .imm⟩) ∧
    fetch { running [104, 1] with ext := 100 } = .ok (.output ⟨1, .imm⟩) ∧
    fetch { running [104, 1] with ext := 1 } = .raise .truncatedInstruction := by decide

/-- A fault of the fetch and a fault of an instruction. -/
theorem test_witness_FaultEntryIsPrecise :
    after (fun t => (t.engine, t.responses)) (running [0]) = some (.faulted, [.runFault 1 0]) ∧
    after (fun t => (t.engine, t.responses)) (running [4, -1, 99]) = some (.faulted, [.runFault 3 0]) := by decide

/-- The four faults of the fetch, and the three of an instruction. -/
theorem test_witness_FaultsRaisedWhereListed :
    fetch (running [0]) = .raise .unknownOpcode ∧ fetch (running [4]) = .raise .truncatedInstruction ∧
    fetch (running [304, 0]) = .raise .invalidMode ∧ fetch (atTop (-1)) = .raise .invalidPc ∧
    nextState? (exec (.output ⟨-1, .pos⟩) (running [])) = some (takeFault .invalidOperand (running [])) ∧
    nextState? (exec .halt (atTop 9223372036854775807)) = some (takeFault .overflow (atTop 9223372036854775807)) ∧
    nextState? (exec (.add ⟨1, .imm⟩ ⟨1, .imm⟩ ⟨2, .pos⟩) (tight [])) = some (takeFault .resourceExhausted (tight [])) := by
  decide

theorem test_witness_PcFollowsDefaultAdvance :
    after (fun t => t.engine) (running [0]) = some .faulted ∧ after (fun t => t.engine) (running [3, 0]) = some .suspended ∧
    jumpTarget? (.jumpIfTrue ⟨1, .imm⟩ ⟨7, .imm⟩) (running [1105, 1, 7]) = some 7 ∧
    jumpTarget? (.jumpIfTrue ⟨0, .imm⟩ ⟨7, .imm⟩) (running [1105, 0, 7]) = none ∧
    after (fun t => (t.engine, t.pc)) (running [1105, 0, 7]) = some (.running, 3) ∧
    after (fun t => (t.engine, t.pc)) (running [99]) = some (.halted, 1) := by decide

/-- J8. -/
theorem test_witness_EndlessRunIsAdmitted :
    (running [1105, 1, 0]).engine = .running ∧
    fetch (running [1105, 1, 0]) = .ok (.jumpIfTrue ⟨1, .imm⟩ ⟨(running [1105, 1, 0]).pc, .imm⟩) := by decide

/-- The last address, and another one. -/
theorem test_witness_MemWriteStoresAndExtends :
    addrMax ≤ addrMax ∧ (State.reset.memWrite addrMax 5).memRead addrMax = 5 ∧ (0 : Nat) ≠ addrMax := by decide

theorem test_witness_CanonicalMemoryIsDetermined :
    Memory.wf [(3, 1), (addrMax, -1)] ∧ ¬Memory.wf [(3, 0)] ∧ ¬Memory.wf [(3, 1), (3, 1)] := by decide

/-- Each side of each range: `-1` and `0` in Position mode; the sums `-1`, `0`, `ADDR_MAX` and `ADDR_MAX + 1`. -/
theorem test_witness_ValueOfFollowsMode :
    (-1 : Word).toInt < 0 ∧ 0 ≤ (0 : Word).toInt ∧
    (-1 : Word).toInt + State.reset.rb.toInt < 0 ∧
    0 ≤ (0 : Word).toInt + State.reset.rb.toInt ∧
    (BitVec.ofNat 64 addrMax).toInt + State.reset.rb.toInt ≤ addrMax ∧
    addrMax < (BitVec.ofNat 64 addrMax).toInt + ({ State.reset with rb := 1 } : State).rb.toInt := by decide

theorem test_witness_AddressOfFollowsMode :
    addressOf ⟨0, .imm⟩ State.reset = .raise .invalidOperand ∧ addressOf ⟨-1, .pos⟩ State.reset = .raise .invalidOperand ∧
    addressOf ⟨0, .pos⟩ State.reset = .ok 0 ∧ addressOf ⟨-1, .rel⟩ State.reset = .raise .invalidOperand ∧
    addressOf ⟨BitVec.ofNat 64 addrMax, .rel⟩ State.reset = .ok addrMax ∧
    addressOf ⟨BitVec.ofNat 64 addrMax, .rel⟩ { State.reset with rb := 1 } = .raise .invalidOperand := by decide

/-- A step that stores, and one that does not. -/
theorem test_witness_AtMostOneStorePerStep :
    after (fun t => (t.memRead 5, t.ext)) (running [1101, 2, 3, 5, 99]) = some (5, 6) ∧
    after (fun t => (t.mem, t.ext)) (running [104, 1]) = some ((running [104, 1]).mem, 2) := by decide

theorem test_witness_StoresAreAdmitted :
    after (fun t => t.memRead 1) (tight [1101, 2, 3, 1, 99]) = some 5 ∧ (tight [1101, 2, 3, 1, 99]).memRead 1 = 2 ∧
    addressOf ⟨2, .pos⟩ (tight []) = .ok 2 ∧ (tight []).memAdmits 2 = false ∧ (tight []).memAdmits 1 = true := by decide

/-! For Add, Multiply, LessThan and Equal: three operands that resolve, with an exact result at each end of the Word range and just
outside; the advance at its last address and past it; a destination admitted and refused; and each operand failing in turn. -/

theorem test_witness_operands :
    valueOf ⟨BitVec.ofInt 64 wordMax, .imm⟩ State.reset = .ok (BitVec.ofInt 64 wordMax) ∧
    valueOf ⟨BitVec.ofInt 64 wordMin, .imm⟩ State.reset = .ok (BitVec.ofInt 64 wordMin) ∧
    valueOf ⟨1, .imm⟩ State.reset = .ok 1 ∧ addressOf ⟨5, .pos⟩ State.reset = .ok 5 ∧
    valueOf ⟨-1, .pos⟩ State.reset = .raise .invalidOperand ∧ addressOf ⟨5, .imm⟩ State.reset = .raise .invalidOperand := by
  decide

theorem test_witness_advance :
    State.reset.pc.toInt + 4 ≤ wordMax ∧ (atTop 9223372036854775803).pc.toInt + 4 ≤ wordMax ∧
    wordMax < (atTop 9223372036854775804).pc.toInt + 4 ∧
    (atTop 9223372036854775804).pc.toInt + 3 ≤ wordMax ∧ wordMax < (atTop 9223372036854775805).pc.toInt + 3 ∧
    (atTop 9223372036854775805).pc.toInt + 2 ≤ wordMax ∧ wordMax < (atTop 9223372036854775806).pc.toInt + 2 ∧
    (atTop 9223372036854775806).pc.toInt + 1 ≤ wordMax ∧ wordMax < (atTop 9223372036854775807).pc.toInt + 1 := by decide

theorem test_witness_AddStoresExactSum :
    (BitVec.ofInt 64 wordMax).toInt + (0 : Word).toInt ≤ wordMax ∧
    wordMax < (BitVec.ofInt 64 wordMax).toInt + (1 : Word).toInt ∧
    (BitVec.ofInt 64 wordMin).toInt + (-1 : Word).toInt < wordMin ∧
    decode false 1 [0, 0, 0] = .ok (.add ⟨0, .pos⟩ ⟨0, .pos⟩ ⟨0, .pos⟩) := by decide

theorem test_witness_MulStoresExactProduct :
    wordMin ≤ (BitVec.ofInt 64 wordMin).toInt * (1 : Word).toInt ∧
    wordMax < (BitVec.ofInt 64 wordMin).toInt * (-1 : Word).toInt ∧
    (BitVec.ofInt 64 wordMin).toInt * (2 : Word).toInt < wordMin ∧
    decode false 2 [0, 0, 0] = .ok (.mul ⟨0, .pos⟩ ⟨0, .pos⟩ ⟨0, .pos⟩) := by decide

theorem test_witness_LessThanStoresComparison :
    valueOf ⟨-1, .imm⟩ State.reset = .ok (-1) ∧ (-1 : Word).toInt < (0 : Word).toInt ∧
    ¬((3 : Word).toInt < (3 : Word).toInt) ∧ State.reset.memAdmits 5 = true ∧ (tight []).memAdmits 5 = false ∧
    decode false 7 [0, 0, 0] = .ok (.lessThan ⟨0, .pos⟩ ⟨0, .pos⟩ ⟨0, .pos⟩) := by decide

theorem test_witness_EqualStoresComparison :
    valueOf ⟨8, .imm⟩ (tight []) = .ok 8 ∧ (8 : Word) = 8 ∧ (8 : Word) ≠ 9 ∧ addressOf ⟨5, .pos⟩ (tight []) = .ok 5 ∧
    decode false 8 [0, 0, 0] = .ok (.equal ⟨0, .pos⟩ ⟨0, .pos⟩ ⟨0, .pos⟩) := by decide

/-- Its clauses: an invalid destination; an empty queue; a queue with an admitted destination, at the last address the advance
allows and past it, and with a refused destination. -/
theorem test_witness_InputConsumesOrSuspends :
    addressOf ⟨0, .imm⟩ (running [103, 0]) = .raise .invalidOperand ∧
    addressOf ⟨1, .pos⟩ (tight [3, 1]) = .ok 1 ∧ (tight [3, 1]).memAdmits 1 = true ∧ (tight [3, 1]).inQ = [] ∧
    ({ tight [3, 2] with inQ := [7] } : State).inQ = 7 :: [] ∧ (tight [3, 2]).memAdmits 2 = false ∧
    decode false 3 [0] = .ok (.input ⟨0, .pos⟩) := by decide

theorem test_witness_OutputAppendsValue :
    valueOf ⟨-1, .pos⟩ State.reset = .raise .invalidOperand ∧ valueOf ⟨-5, .imm⟩ State.reset = .ok (-5) ∧
    decode false 4 [0] = .ok (.output ⟨0, .pos⟩) := by decide

theorem test_witness_JumpIfTrueLoadsPc :
    valueOf ⟨-1, .pos⟩ State.reset = .raise .invalidOperand ∧ valueOf ⟨-1, .imm⟩ State.reset = .ok (-1) ∧
    (-1 : Word) ≠ 0 ∧ valueOf ⟨100, .pos⟩ State.reset = .ok 0 ∧
    decode false 5 [0, 0] = .ok (.jumpIfTrue ⟨0, .pos⟩ ⟨0, .pos⟩) := by decide

theorem test_witness_JumpIfFalseLoadsPc :
    valueOf ⟨-1, .rel⟩ State.reset = .raise .invalidOperand ∧ valueOf ⟨0, .imm⟩ State.reset = .ok 0 ∧
    valueOf ⟨3, .imm⟩ State.reset = .ok 3 ∧ decode false 6 [0, 0] = .ok (.jumpIfFalse ⟨0, .pos⟩ ⟨0, .pos⟩) := by decide

theorem test_witness_AdjustRelativeBaseAddsValue :
    valueOf ⟨-1, .pos⟩ State.reset = .raise .invalidOperand ∧
    wordMin ≤ State.reset.rb.toInt + (BitVec.ofInt 64 wordMin).toInt ∧
    State.reset.rb.toInt + (BitVec.ofInt 64 wordMax).toInt ≤ wordMax ∧
    wordMax < ({ State.reset with rb := 1 } : State).rb.toInt + (BitVec.ofInt 64 wordMax).toInt ∧
    ({ State.reset with rb := -1 } : State).rb.toInt + (BitVec.ofInt 64 wordMin).toInt < wordMin ∧
    decode false 9 [0] = .ok (.adjustRelativeBase ⟨0, .pos⟩) := by decide

theorem test_witness_HaltEndsTheRun :
    after (fun t => t.engine) (atTop 9223372036854775807) = some .faulted ∧ (between .halted .run).engine = .halted ∧
    0 ≤ (1199 : Word).toInt ∧ (1199 : Word).toNat % 100 = 99 ∧ decode false 1199 [] = .ok .halt := by decide

theorem test_witness_ImmediateDestinationFaults : (Instr.input ⟨0, .imm⟩).wellFormed = false := by decide

/-- Every clause: an Input that completes, one that suspends, one that faults, another instruction; FEED, and another move. -/
theorem test_witness_InputQueueIsFifo :
    after (fun t => (t.engine, t.inQ)) { running [3, 0, 99] with inQ := [5, 6] } = some (.running, [6]) ∧
    after (fun t => (t.engine, t.inQ)) (running [3, 0, 99]) = some (.suspended, []) ∧
    after (fun t => (t.engine, t.inQ)) { running [103, 0] with inQ := [5] } = some (.faulted, [5]) ∧
    after (fun t => t.inQ) { running [99] with inQ := [5] } = some [5] ∧
    after (fun t => t.inQ) { between .halted (.feed 5) with inQ := [4] } = some [4, 5] ∧
    after (fun t => t.inQ) { between .halted .run with inQ := [4] } = some [4] := by decide

theorem test_witness_OutputLogIsAppendOnly :
    after (fun t => (t.engine, t.outLog)) { running [104, -5] with outLog := [1] } = some (.running, [1, -5]) ∧
    after (fun t => (t.engine, t.outLog)) { running [4, -1] with outLog := [1] } = some (.faulted, [1]) ∧
    after (fun t => (t.outLog, t.responses)) { between .halted .output with outLog := [1, 2] } =
      some ([1, 2], [.output [1, 2]]) := by decide

theorem test_witness_RelativeBaseOnlyByAdjust : after (fun t => t.rb) (running [109, -5]) = some (-5) := by decide

theorem test_witness_HostHasNoOtherAccess :
    (between .idle .run).engine ≠ .running ∧ (between .idle .run).status = 0 ∧
    after (fun t => t.status) (between .idle .run) = some 8 := by decide

theorem test_witness_FeedAppends :
    ∀ e ∈ [EngineState.idle, .suspended, .halted, .faulted],
      after (fun t => (t.inQ, t.engine, t.responses)) (between e (.feed 7)) = some ([7], e, []) := by decide

theorem test_witness_RunOnEndedMachineAnswersAgain :
    after (fun t => t.responses)
      { between .faulted .run with faultCode := some .overflow, faultPc := 15 } = some [.runFault 5 15] ∧
    after (fun t => t.responses) (between .halted .run) = some [.runHalted] := by decide

theorem test_witness_RunWithoutInputSuspendsAgain :
    fetch ({ running [3, 0, 99] with engine := .suspended, pending := [.run] } : State) = .ok (.input ⟨0, .pos⟩) ∧
    addressOf ⟨0, .pos⟩ (running [3, 0, 99]) = .ok 0 ∧ (running [3, 0, 99]).inQ = [] ∧
    (nextState? (runSteps 2 { running [3, 0, 99] with engine := .suspended, pending := [.run] })).map
      (fun t => (t.engine, t.responses)) = some (.suspended, [.runSuspended]) := by decide

theorem test_witness_RunAnswersAtItsEnd :
    after (fun t => t.responses) (running [104, 1]) = some [] ∧
    after (fun t => t.responses) (running [3, 0]) = some [.runSuspended] ∧
    after (fun t => t.responses) (running [99]) = some [.runHalted] ∧
    after (fun t => t.responses) (running [1, 0]) = some [.runFault 2 0] := by decide

theorem test_witness_ReadingTransactionsAnswer :
    after (fun t => t.responses) (between .halted .isHalted) = some [.isHalted true] ∧
    after (fun t => t.responses) (between .halted .isSuspended) = some [.isSuspended false] ∧
    after (fun t => t.responses) (between .suspended .statusRead) = some [.status 2 0] ∧
    after (fun t => t.responses) (between .idle .output) = some [.output []] := by decide

/-- The addresses where the clauses meet: `-1`, `0`, `ADDR_MAX`, `ADDR_MAX + 1`. -/
theorem test_witness_PeekAnswers :
    after (fun t => t.responses) (between .idle (.peek (-1))) = some [.peekInvalid] ∧
    after (fun t => t.responses) (between .idle (.peek 0)) = some [.peek 0 false] ∧
    after (fun t => t.responses) (between .idle (.peek 9223372036854775807)) = some [.peek 0 false] ∧
    after (fun t => t.responses) (between .idle (.peek 9223372036854775808)) = some [.peekInvalid] := by decide

/-- STATUS of a machine that a fault with code 7 ended: bit 2, and 7 in bits 7 to 4. -/
theorem test_status :
    ({ State.reset with engine := .faulted, faultCode := some .resourceExhausted } : State).status = 116 ∧
    State.reset.status = 0 := by decide

/-- The Input of `[3,0,99]`, suspended, fed one word. -/
theorem test_witness_SuspendResumeEqualsQueuedInput :
    (running [3, 0, 99]).engine = .running ∧ fetch (running [3, 0, 99]) = .ok (.input ⟨0, .pos⟩) ∧
    addressOf ⟨0, .pos⟩ (running [3, 0, 99]) = .ok 0 ∧ (running [3, 0, 99]).inQ = [] := by decide

theorem test_witness_QueueTailDoesNotMatter :
    after (fun t => t.engine) { running [3, 0, 99] with inQ := [5] } = some .running := by decide

theorem test_witness_RunningStepIgnoresHost :
    ({ running [99] with pending := [.run] } : State).machine = (running [99]).machine ∧
    (running [99]).engine = .running ∧ after (fun t => t.engine) (running [99]) = some .halted := by decide

theorem test_witness_ParametersNeverChange : after (fun t => t.config) (between .idle .run) = some Config.spec := by decide

theorem test_witness_InvariantAfterLoad : (load Config.spec [1, 0, 99]).isSome = true := by decide

theorem test_reset_inv : State.reset.mem.wf ∧ State.reset.ext ≤ addrMax + 1 ∧ State.reset.faultCode = none := by decide

/-- The invariant holds of a machine in a run, whose step goes on. -/
theorem test_witness_StepKeepsInvariant :
    (running [1101, 2, 3, 5, 99]).Inv ∧ after (fun t => t.ext) (running [1101, 2, 3, 5, 99]) = some 6 :=
  ⟨⟨by decide, by decide, by decide, by decide, by decide⟩, by decide⟩

end Sys2Proof.Tests
end

/-! The input queue and the output log (10_state.md R26, R27): what an instruction, a running step and a move of the host do
to them. -/

namespace Sys2Proof.Proofs.QueueAndLog

open Sys2Proof.Machine Sys2Proof.Laws

variable {s t : State} {i : Instr}

/-! One instruction, then one running step. -/

/-- An instruction leaves the queue, or is an Input that goes on and has stored the head it removed (10_state.md R26). -/
theorem effect_inQ (h : Effect s i t) :
    (t.inQ = s.inQ ∧ ∀ p, i = .input p → t.engine ≠ .running) ∨
    ∃ p c v, i = .input p ∧ t.engine = s.engine ∧ addressOf p s = .ok c ∧ s.inQ = v :: t.inQ ∧ t.memRead c = v := by
  cases h with
  | input p c v npc rest hc hq => exact .inr ⟨p, c, v, rfl, rfl, hc, hq, memRead_memWrite_same s c v⟩
  | suspend => exact .inl ⟨rfl, by simp⟩
  | fault => exact .inl ⟨rfl, by simp⟩
  | store _ _ _ _ _ hn => exact .inl ⟨rfl, by rintro p rfl; cases hn⟩
  | jump _ hj => exact .inl ⟨rfl, by rintro p rfl; cases hj⟩
  | fallThrough _ _ hn => exact .inl ⟨rfl, by rintro p rfl; cases hn⟩
  | output | adjust | halt => exact .inl ⟨rfl, nofun⟩

/-- An instruction leaves the log, or is an Output that goes on and has appended its operand's value (10_state.md R27). -/
theorem effect_outLog (h : Effect s i t) :
    (t.outLog = s.outLog ∧ ∀ p, i = .output p → t.engine ≠ .running) ∨
    ∃ p a, i = .output p ∧ t.engine = s.engine ∧ valueOf p s = .ok a ∧ t.outLog = s.outLog ++ [a] := by
  cases h with
  | output p a npc hv => exact .inr ⟨p, a, rfl, rfl, hv, rfl⟩
  | fault => exact .inl ⟨rfl, by simp⟩
  | store _ _ _ _ _ hn => exact .inl ⟨rfl, by rintro p rfl; cases hn⟩
  | jump _ hj => exact .inl ⟨rfl, by rintro p rfl; cases hj⟩
  | fallThrough _ _ hn => exact .inl ⟨rfl, by rintro p rfl; cases hn⟩
  | input | suspend | adjust | halt => exact .inl ⟨rfl, nofun⟩

/-- `effect_inQ` for a whole step; a fault of the fetch leaves the queue. -/
theorem running_step_inQ (hr : s.engine = .running) (h : step s = .next t) :
    (t.inQ = s.inQ ∧ ∀ p, fetch s = .ok (.input p) → t.engine ≠ .running) ∨
    ∃ p c v, fetch s = .ok (.input p) ∧ t.engine = .running ∧ addressOf p s = .ok c ∧ s.inQ = v :: t.inQ ∧
      t.memRead c = v := by
  rcases step_running hr h with ⟨f, hf, rfl⟩ | ⟨i, u, hf, he, rfl⟩
  · exact .inl ⟨rfl, by simp⟩
  · rcases effect_inQ (exec_effect he) with ⟨hq, hn⟩ | ⟨p, c, v, rfl, heng, hc, hq, hm⟩
    · exact .inl ⟨hq, by simpa [hf] using hn⟩
    · exact .inr ⟨p, c, v, hf, heng.trans hr, hc, hq, hm⟩

/-- `effect_outLog` for a whole step; a fault of the fetch leaves the log. -/
theorem running_step_outLog (hr : s.engine = .running) (h : step s = .next t) :
    (t.outLog = s.outLog ∧ ∀ p, fetch s = .ok (.output p) → t.engine ≠ .running) ∨
    ∃ p a, fetch s = .ok (.output p) ∧ t.engine = .running ∧ valueOf p s = .ok a ∧ t.outLog = s.outLog ++ [a] := by
  rcases step_running hr h with ⟨f, hf, rfl⟩ | ⟨i, u, hf, he, rfl⟩
  · exact .inl ⟨rfl, by simp⟩
  · rcases effect_outLog (exec_effect he) with ⟨hl, hn⟩ | ⟨p, a, rfl, heng, hv, hl⟩
    · exact .inl ⟨hl, by simpa [hf] using hn⟩
    · exact .inr ⟨p, a, hf, heng.trans hr, hv, hl⟩

/-! The host's move between runs (49_host_interface.md R141). -/

theorem hostMove_of_head {c : HostCommand} (h : s.pending.head? = some c) :
    hostMove s = serve c { s with pending := s.pending.tail } := by
  obtain ⟨rest, hp⟩ := List.head?_eq_some_iff.mp h
  simp only [hostMove, hp, List.tail_cons]

@[simp] theorem enterRun_inQ (s : State) : (enterRun s).inQ = s.inQ := by
  unfold enterRun
  split <;> rfl

/-- Only FEED touches the queue. -/
theorem serve_inQ {c : HostCommand} (h : ∀ w, c ≠ .feed w) (s : State) : (serve c s).inQ = s.inQ := by
  cases c with
  | feed w => exact absurd rfl (h w)
  | run => exact enterRun_inQ s
  | output | peek | isHalted | isSuspended | statusRead => rfl

theorem hostMove_inQ_of_feed {w : Word} (h : s.pending.head? = some (.feed w)) :
    (hostMove s).inQ = s.inQ ++ [w] := by
  rw [hostMove_of_head h]; rfl

theorem hostMove_inQ_of_not_feed (h : ∀ w, s.pending.head? ≠ some (.feed w)) : (hostMove s).inQ = s.inQ := by
  cases hp : s.pending.head? with
  | none => rw [List.head?_eq_none_iff] at hp; simp only [hostMove, hp]
  | some c =>
    have hc : ∀ w, c ≠ .feed w := by simpa [hp] using h
    rw [hostMove_of_head hp, serve_inQ hc]

theorem hostMove_outLog (s : State) : (hostMove s).outLog = s.outLog := by
  rw [hostMove_frame]

theorem hostMove_responses_of_output (h : s.pending.head? = some .output) :
    (hostMove s).responses = s.responses ++ [.output s.outLog] := by
  rw [hostMove_of_head h]; rfl

/-- A step outside a run is the host's move. -/
theorem eq_hostMove_of_step (hr : s.engine ≠ .running) (h : step s = .next t) : t = hostMove s := by
  rw [step_notRunning hr, Host.Outcome.next.injEq] at h
  exact h.symm

/-! The obligations. -/

/-- Settles O35: a running step by what its instruction did to the queue, a step between runs by the host's move. -/
theorem inputQueueIsFifo : Obligations.InputQueueIsFifo := by
  intro s t h
  refine ⟨fun hr => ?_, fun hr => ?_⟩
  · rcases running_step_inQ hr h with ⟨hq, hn⟩ | ⟨p, c, v, hf, heng, hc, hq, hm⟩
    · exact ⟨fun p hf heng => absurd heng (hn p hf), fun _ => hq⟩
    · refine ⟨fun p' hf' _ => ?_, fun hor => ?_⟩
      · obtain rfl : p = p' := by simpa [hf] using hf'
        exact ⟨c, v, hc, hq, hm⟩
      · rcases hor with hno | hstop
        · exact absurd hf (hno p)
        · exact absurd heng hstop
  · rw [eq_hostMove_of_step hr h]
    exact ⟨fun w => hostMove_inQ_of_feed, hostMove_inQ_of_not_feed⟩

/-- Settles O36: a running step by what its instruction did to the log, a step between runs by the host's move. -/
theorem outputLogIsAppendOnly : Obligations.OutputLogIsAppendOnly := by
  intro s t h
  by_cases hr : s.engine = .running
  · refine ⟨fun p _ hf heng => ?_, fun hor => ?_, fun hn => absurd hr hn⟩
    · rcases running_step_outLog hr h with ⟨-, hn⟩ | ⟨p', a, hf', -, hv, hl⟩
      · exact absurd heng (hn p hf)
      · obtain rfl : p = p' := by simpa [hf] using hf'
        exact ⟨a, hv, hl⟩
    · rcases running_step_outLog hr h with ⟨hl, -⟩ | ⟨p, a, hf, heng, -, -⟩
      · exact hl
      · rcases hor with hn | hno | hstop
        · exact absurd hr hn
        · exact absurd hf (hno p)
        · exact absurd heng hstop
  · obtain rfl := eq_hostMove_of_step hr h
    exact ⟨fun _ hr' => absurd hr' hr, fun _ => hostMove_outLog s, fun _ => hostMove_responses_of_output⟩

end Sys2Proof.Proofs.QueueAndLog

/-! MemWrite (20_memory.md R42) and the addressing resolver mode by mode (R52, R53). -/

namespace Sys2Proof.Proofs.MemoryAndResolver

open Sys2Proof.Machine Sys2Proof.Laws

variable {s : State} {p : Param} {x : Int} {v : Word} {a : Nat} {f : FaultKind}

/-! The range check on an exact sum. -/

theorem checkAddress_of_outside (h : x < 0 ∨ addrMax < x) : checkAddress x = .raise .invalidOperand :=
  checkAddress_eq_raise.mpr ⟨rfl, h⟩

theorem checkAddress_of_range (h0 : 0 ≤ x) (h1 : x ≤ addrMax) : checkAddress x = .ok x.toNat :=
  checkAddress_eq_ok.mpr ⟨Int.toNat_of_nonneg h0, by omega⟩

/-- No Word lies above the address space, so a Position operand has no upper side. -/
theorem toInt_le_addrMax (v : Word) : v.toInt ≤ addrMax :=
  (toInt_range v).2

/-! AddressOf, one equation per mode. -/

theorem addressOf_imm (v : Word) (s : State) : addressOf ⟨v, .imm⟩ s = .raise .invalidOperand := rfl

theorem addressOf_pos (v : Word) (s : State) : addressOf ⟨v, .pos⟩ s = checkAddress v.toInt := rfl

theorem addressOf_rel (v : Word) (s : State) : addressOf ⟨v, .rel⟩ s = checkAddress (v.toInt + s.rb.toInt) := rfl

/-! ValueOf: outside Immediate mode, the word at the address AddressOf gives (R52 against R53). -/

theorem valueOf_imm (v : Word) (s : State) : valueOf ⟨v, .imm⟩ s = .ok v := rfl

theorem valueOf_eq_addressOf_bind (s : State) (hp : p.mode ≠ .imm) :
    valueOf p s = (addressOf p s).bind fun a => .ok (s.memRead a) := by
  obtain ⟨v, m⟩ := p
  cases m with
  | imm => exact absurd rfl hp
  | pos | rel => rfl

theorem valueOf_of_addressOf_ok (h : addressOf p s = .ok a) : valueOf p s = .ok (s.memRead a) := by
  rw [valueOf_eq_addressOf_bind s (addressOf_mode h), h, ok_bind]

theorem valueOf_of_addressOf_raise (hp : p.mode ≠ .imm) (h : addressOf p s = .raise f) : valueOf p s = .raise f := by
  rw [valueOf_eq_addressOf_bind s hp, h, raise_bind]

/-! The obligations. -/

/-- Settles O18: by the laws of a read after a write; the frame is the definition of MemWrite. -/
theorem memWriteStoresAndExtends : Obligations.MemWriteStoresAndExtends := by
  intro s a v _
  exact ⟨memRead_memWrite_same s a v, fun b => memRead_memWrite_other s a b v, memWrite_ext s a v, rfl⟩

/-- Settles O21: the range check on each side, at the operand word or at its sum with the base. -/
theorem addressOfFollowsMode : Obligations.AddressOfFollowsMode := by
  intro v s
  rw [addressOf_pos, addressOf_rel]
  exact ⟨addressOf_imm v s,
    fun h => checkAddress_of_outside (.inl h), fun h => checkAddress_of_range h (toInt_le_addrMax v),
    checkAddress_of_outside, checkAddress_of_range⟩

/-- Settles O20: outside Immediate mode each clause is O21's, carried through the read. -/
theorem valueOfFollowsMode : Obligations.ValueOfFollowsMode := by
  intro v s
  obtain ⟨-, posBelow, posIn, relOut, relIn⟩ := addressOfFollowsMode v s
  exact ⟨valueOf_imm v s,
    fun h => valueOf_of_addressOf_raise nofun (posBelow h), fun h => valueOf_of_addressOf_ok (posIn h),
    fun h => valueOf_of_addressOf_raise nofun (relOut h), fun h0 h1 => valueOf_of_addressOf_ok (relIn h0 h1)⟩

end Sys2Proof.Proofs.MemoryAndResolver

/-! What the decoder raises (30_encoding.md R70 to R74): the opcode numbers of the table, the fault of a mode digit, and the
operand addresses that the truncation policy refuses. -/

namespace Sys2Proof.Proofs.DecoderFaults

open Sys2Proof.Machine Sys2Proof.Laws

variable {strict : Bool} {raw v : Word} {words : List Word} {md n k : Nat} {op : Opcode} {f : DecodeFault}

/-! UnknownOpcode (R70, R71). -/

theorem toInt_eq_toNat (h : 0 ≤ raw.toInt) : raw.toInt = raw.toNat := by
  rw [BitVec.toInt_eq_toNat_cond, if_pos]
  have := (toInt_nonneg_iff raw).mp h
  omega

/-- The numbers in the opcode column of the table (R67). -/
theorem exists_number_iff : (∃ op : Opcode, op.number = n) ↔ (n : Int) ∈ [1, 2, 3, 4, 5, 6, 7, 8, 9, 99] := by
  constructor
  · rintro ⟨op, rfl⟩
    cases op <;> decide
  · intro h
    have hn : n ∈ opcodeTable.map Opcode.number := by
      simp only [List.mem_cons, List.not_mem_nil, or_false] at h
      simp only [opcodeTable, Opcode.number, List.map_cons, List.map_nil, List.mem_cons, List.not_mem_nil, or_false]
      omega
    obtain ⟨op, -, hop⟩ := List.mem_map.mp hn
    exact ⟨op, hop⟩

theorem decode_of_negative (h : raw.toInt < 0) : decode strict raw words = .raise (.unknownOpcode raw) :=
  if_pos h

theorem decode_of_no_opcode (h : ¬∃ op : Opcode, op.number = raw.toNat % 100) :
    decode strict raw words = .raise (.unknownOpcode raw) := by
  unfold decode
  rw [lookupOpcode_eq_none.mpr (not_exists.mp h), ite_self]

/-- Settles O6: by the sign of the word, then by whether the table has its opcode number. -/
theorem unknownOpcodeExactly : Obligations.UnknownOpcodeExactly := by
  intro strict raw words
  by_cases hneg : raw.toInt < 0
  · simp only [hneg, true_or, iff_true]
    exact decode_of_negative hneg
  have h0 : 0 ≤ raw.toInt := not_lt.mp hneg
  have hmod : raw.toInt % 100 = ((raw.toNat % 100 : Nat) : Int) := by rw [toInt_eq_toNat h0]; omega
  rw [hmod, ← exists_number_iff]
  by_cases hop : ∃ op : Opcode, op.number = raw.toNat % 100
  · obtain ⟨op, hop⟩ := hop
    have hknown : decode strict raw words ≠ .raise (.unknownOpcode raw) := by
      rw [decode_of_opcode h0 hop.symm]
      exact decodeOperands_known
    exact iff_of_false hknown (not_or.mpr ⟨hneg, not_not.mpr ⟨op, hop⟩⟩)
  · exact iff_of_true (decode_of_no_opcode hop) (.inr hop)

/-! InvalidMode (R72, R73). -/

/-- The first `n` mode digits of `md` are modes. -/
def LegalBelow (md n : Nat) : Prop :=
  ∀ j, j < n → digit j md ≤ 2

theorem legalBelow_zero : LegalBelow md 0 := nofun

theorem legalBelow_succ (h : LegalBelow md n) (hn : digit n md ≤ 2) : LegalBelow md (n + 1) := by
  intro j hj
  rcases Nat.lt_succ_iff_lt_or_eq.mp hj with hlt | rfl
  · exact h j hlt
  · exact hn

/-- The mode faults of an instruction of arity `n`: the lowest used digit that is no mode, or the lowest excess digit where no
used one is at fault. -/
inductive ModeFault (strict : Bool) (md n : Nat) : DecodeFault → Prop where
  | used {k : Nat} (hk : k < n) (hlow : LegalBelow md k) (hbad : 2 < digit k md) :
      ModeFault strict md n (.invalidMode (k + 1) (digit k md))
  | excess (hlegal : LegalBelow md n) (hstrict : strict = true) (hexcess : md / 10 ^ n ≠ 0) :
      ModeFault strict md n (.invalidMode (n + 1) (digit n md))

theorem modeFault_of_checkExcess {i : Instr} (hlegal : LegalBelow md n) (h : checkExcess strict md n i = .raise f) :
    ModeFault strict md n f := by
  obtain ⟨rfl, hstrict, hexcess⟩ := checkExcess_eq_raise.mp h
  exact .excess hlegal hstrict hexcess

/-- One operand: its digit is the fault, or it is a mode and the rest of the decoder raises. -/
theorem modeFault_of_decodeParam_bind {rest : Param → Checked DecodeFault Instr} (hk : k < n) (hlow : LegalBelow md k)
    (hrest : ∀ p, LegalBelow md (k + 1) → rest p = .raise f → ModeFault strict md n f)
    (h : (decodeParam md (k + 1) v).bind rest = .raise f) : ModeFault strict md n f := by
  rcases bind_eq_raise.mp h with hp | ⟨p, hp, hr⟩
  · obtain ⟨rfl, hbad⟩ := decodeParam_eq_raise.mp hp
    exact .used hk hlow hbad
  · have hd : p.mode.digit = digit k md := (decodeParam_eq_ok.mp hp).2
    exact hrest p (legalBelow_succ hlow (hd ▸ digit_le_two p.mode)) hr

/-- Each format raises TruncatedInstruction or a mode fault. -/
theorem truncated_or_modeFault_of_decodeF1 {mk : Param → Instr} (h : decodeF1 mk strict md words = .raise f) :
    f = .truncatedInstruction 1 ∨ ModeFault strict md 1 f := by
  match words with
  | [] => cases h; exact .inl rfl
  | _ :: _ =>
    exact .inr (modeFault_of_decodeParam_bind (by decide) legalBelow_zero (fun _ l => modeFault_of_checkExcess l) h)

theorem truncated_or_modeFault_of_decodeF2 {mk : Param → Param → Instr} (h : decodeF2 mk strict md words = .raise f) :
    f = .truncatedInstruction 2 ∨ ModeFault strict md 2 f := by
  match words with
  | [] | [_] => cases h; exact .inl rfl
  | _ :: _ :: _ =>
    exact .inr (modeFault_of_decodeParam_bind (by decide) legalBelow_zero (fun _ l =>
      modeFault_of_decodeParam_bind (by decide) l fun _ l => modeFault_of_checkExcess l) h)

theorem truncated_or_modeFault_of_decodeF3 {mk : Param → Param → Param → Instr} (h : decodeF3 mk strict md words = .raise f) :
    f = .truncatedInstruction 3 ∨ ModeFault strict md 3 f := by
  match words with
  | [] | [_] | [_, _] => cases h; exact .inl rfl
  | _ :: _ :: _ :: _ =>
    exact .inr (modeFault_of_decodeParam_bind (by decide) legalBelow_zero (fun _ l =>
      modeFault_of_decodeParam_bind (by decide) l fun _ l =>
        modeFault_of_decodeParam_bind (by decide) l fun _ l => modeFault_of_checkExcess l) h)

/-- Everything the operand part of the decoder can raise. -/
theorem truncated_or_modeFault_of_decodeOperands (h : decodeOperands op strict md words = .raise f) :
    f = .truncatedInstruction op.arity ∨ ModeFault strict md op.arity f := by
  cases op with
  | add | mul | lessThan | equal => exact truncated_or_modeFault_of_decodeF3 h
  | jumpIfTrue | jumpIfFalse => exact truncated_or_modeFault_of_decodeF2 h
  | input | output | adjustRelativeBase => exact truncated_or_modeFault_of_decodeF1 h
  | halt => exact .inr (modeFault_of_checkExcess legalBelow_zero h)

/-- With its operand words present, a word of the table raises a mode fault or decodes. -/
theorem decodeOperands_cases (strict : Bool) (md : Nat) (h : op.arity ≤ words.length) :
    (∃ f, decodeOperands op strict md words = .raise f ∧ ModeFault strict md op.arity f) ∨
    ∃ i, decodeOperands op strict md words = .ok i := by
  cases hd : decodeOperands op strict md words with
  | ok i => exact .inr ⟨i, rfl⟩
  | raise f =>
    rcases truncated_or_modeFault_of_decodeOperands hd with rfl | hf
    · have := (decodeOperands_truncated.mp hd).1
      omega
    · exact .inl ⟨f, rfl, hf⟩

/-- The lowest bad digit decides the fault. -/
theorem modeFault_eq_used (hk : k < n) (hlow : LegalBelow md k) (hbad : 2 < digit k md) (h : ModeFault strict md n f) :
    f = .invalidMode (k + 1) (digit k md) := by
  cases h with
  | @used k' _ hlow' hbad' =>
    have h1 : ¬k' < k := fun hlt => absurd (hlow k' hlt) (by omega)
    have h2 : ¬k < k' := fun hlt => absurd (hlow' k hlt) (by omega)
    obtain rfl : k' = k := by omega
    rfl
  | excess hlegal => exact absurd (hlegal k hk) (by omega)

/-- Where every used digit is a mode, only an excess digit under STRICT_EXCESS_MODES is a fault. -/
theorem modeFault_of_legal (hlegal : LegalBelow md n) (h : ModeFault strict md n f) :
    f = .invalidMode (n + 1) (digit n md) ∧ strict = true ∧ md / 10 ^ n ≠ 0 := by
  cases h with
  | @used k hk _ hbad => exact absurd (hlegal k hk) (by omega)
  | excess _ hstrict hexcess => exact ⟨rfl, hstrict, hexcess⟩

/-- A parameter of a decoded instruction stands at each used position, with the mode of its digit. -/
theorem exists_param_of_modesAre {i : Instr} {j : Nat} (hm : ModesAre md i.params) (hj : j < i.opcode.arity) :
    ∃ p, i.params[j]? = some p ∧ p.mode.digit = digit j md := by
  have hp : i.params[j]? = some (i.params[j]'(by rwa [params_length])) := List.getElem?_eq_getElem _
  exact ⟨_, hp, hm j _ hp⟩

/-- Settles O7: the decoder raises a mode fault or decodes, and each clause leaves one of the two. -/
theorem modeDigitsChecked : Obligations.ModeDigitsChecked := by
  intro strict raw words op h0 hop hlen
  rw [decode_of_opcode h0 hop]
  generalize raw.toNat / 100 = md
  have hcases := decodeOperands_cases strict md hlen
  refine ⟨fun k hk hlow hbad => ?_, fun hlegal => ⟨fun hstrict hexcess => ?_, fun hnone => ?_⟩⟩
  · rcases hcases with ⟨f, hf, hm⟩ | ⟨i, hi⟩
    · rw [hf, modeFault_eq_used hk hlow hbad hm]
    · obtain ⟨rfl, -, hmodes, -⟩ := decodeOperands_eq_ok.mp hi
      obtain ⟨p, -, hp⟩ := exists_param_of_modesAre hmodes hk
      have := digit_le_two p.mode
      omega
  · rcases hcases with ⟨f, hf, hm⟩ | ⟨i, hi⟩
    · rw [hf, (modeFault_of_legal hlegal hm).1]
    · obtain ⟨-, -, -, hs⟩ := decodeOperands_eq_ok.mp hi
      exact absurd (hs hstrict) hexcess
  · rcases hcases with ⟨f, -, hm⟩ | ⟨i, hi⟩
    · obtain ⟨-, hstrict, hexcess⟩ := modeFault_of_legal hlegal hm
      rcases hnone with hs | he
      · exact absurd hstrict (by simp [hs])
      · exact absurd he hexcess
    · obtain ⟨rfl, hpre, hmodes, -⟩ := decodeOperands_eq_ok.mp hi
      refine ⟨i, hi, rfl, ?_, fun j hj => exists_param_of_modesAre hmodes hj⟩
      rw [List.prefix_iff_eq_take.mp hpre, List.length_map, params_length]

/-! TruncatedInstruction (R74). -/

/-- The words that a predicate lets through from the front fall short of `n` exactly where it refuses one of the first `n`. -/
theorem length_takeWhile_lt_iff {α : Type} {p : α → Bool} {l : List α} (h : n ≤ l.length) :
    (l.takeWhile p).length < n ↔ ∃ a ∈ l.take n, p a = false := by
  induction l generalizing n with
  | nil => simp_all
  | cons a l ih =>
    cases n with
    | zero => simp
    | succ n =>
      rw [List.takeWhile_cons, List.take_succ_cons]
      cases hp : p a with
      | false => simp [hp]
      | true => simp [hp, ih (Nat.le_of_succ_le_succ h)]

/-- Too few operand words are addressable exactly where one of the first `n` operand addresses is invalid. -/
theorem operandWords_length_lt_iff (s : State) (a : Nat) (h : n ≤ 3) :
    (s.operandWords a).length < n ↔ ∃ j, 1 ≤ j ∧ j ≤ n ∧ s.operandReadable (a + j) = false := by
  have hrange : ([a + 1, a + 2, a + 3] : List Nat) = List.range' (a + 1) 3 := rfl
  rw [State.operandWords, List.length_map, hrange, length_takeWhile_lt_iff h]
  simp only [List.mem_take_iff_getElem, List.getElem_range', List.length_range']
  constructor
  · rintro ⟨_, ⟨i, hi, rfl⟩, hr⟩
    exact ⟨i + 1, by omega, by omega, by rwa [Nat.one_mul, Nat.add_assoc, Nat.add_comm 1 i] at hr⟩
  · rintro ⟨j, h1, hj, hr⟩
    exact ⟨a + j, ⟨j - 1, by omega, by omega⟩, hr⟩

/-- The fetch truncates exactly where the decoder does, at the arity of the opcode. -/
theorem fetch_truncated_iff {s : State} (hpc : 0 ≤ s.pc.toInt) (h0 : 0 ≤ (s.memRead s.pc.toNat).toInt)
    (hop : (s.memRead s.pc.toNat).toNat % 100 = op.number) :
    fetch s = .raise .truncatedInstruction ↔ (s.operandWords s.pc.toNat).length < op.arity := by
  rw [fetch_of_pc hpc, decode_of_opcode h0 hop]
  constructor
  · intro h
    split at h
    · cases h
    · next f hf =>
      rcases truncated_or_modeFault_of_decodeOperands hf with rfl | hm
      · exact (decodeOperands_truncated.mp hf).1
      · cases hm <;> cases h
  · intro h
    rw [decodeOperands_truncated.mpr ⟨h, rfl⟩]
    rfl

/-- Settles O8: the fetch truncates where the readable words fall short of the arity, which is where an operand address is
invalid under the policy. -/
theorem truncationFollowsPolicy : Obligations.TruncationFollowsPolicy := by
  intro s op hpc h0 hop
  rw [fetch_truncated_iff hpc h0 hop, operandWords_length_lt_iff s _ (opcode_arity_le op)]
  simp only [operandReadable_eq_false]

end Sys2Proof.Proofs.DecoderFaults

/-! The assembler and the disassembler (30_encoding.md R81, R82): a program whose operands mean something assembles, and each
line's words stand at the sum of the sizes before it. -/

namespace Sys2Proof.Proofs.AssembledWords

open Sys2Proof.Machine Sys2Proof.Laws

variable {program : List AsmLine} {labels : List (String × Nat)} {ws : List Word}

/-! Values and operands. -/

/-- No label is defined a second time. -/
def DistinctLabels (program : List AsmLine) : Prop :=
  ∀ before name after, program = before ++ .label name :: after → AsmLine.label name ∉ before

/-- The assembler's value of an `n` is one of its meanings, whatever the labels. -/
theorem valueMeans_of_int? {v : AsmValue} {n : Int} (h : v.int? (labelsFrom 0 program) = some n) :
    ValueMeans program v n := by
  cases v with
  | num m => exact (Option.some.inj h).symm
  | label name =>
    obtain ⟨a, ha, rfl⟩ := int?_label.mp h
    obtain ⟨before, after, hsplit, -, rfl⟩ := lookup_labelsFrom.mp ha
    exact ⟨before, after, hsplit, by rw [Nat.zero_add]⟩

/-- With distinct labels it is the only one. -/
theorem int?_of_valueMeans (hd : DistinctLabels program) {v : AsmValue} {n : Int} (h : ValueMeans program v n) :
    v.int? (labelsFrom 0 program) = some n := by
  cases v with
  | num m => exact congrArg some (Eq.symm h)
  | label name =>
    obtain ⟨before, after, hsplit, rfl⟩ := h
    have hfirst := hd before name after hsplit
    exact int?_label.mpr
      ⟨asmLength before, lookup_labelsFrom.mpr ⟨before, after, hsplit, hfirst, by rw [Nat.zero_add]⟩, rfl⟩

theorem operandMeans_of_word? {o : AsmOperand} {w : Word} (h : o.word? (labelsFrom 0 program) = some w) :
    OperandMeans program o w := by
  obtain ⟨n, hn, hw⟩ := operand_word?_eq_some.mp h
  exact ⟨n, valueMeans_of_int? hn, hw⟩

theorem operand_word?_of_means (hd : DistinctLabels program) {o : AsmOperand} {w : Word} (h : OperandMeans program o w) :
    o.word? (labelsFrom 0 program) = some w := by
  obtain ⟨n, hn, hw⟩ := h
  exact operand_word?_eq_some.mpr ⟨n, int?_of_valueMeans hd hn, hw⟩

/-! A program that means something assembles. -/

theorem exists_forall₂ {α β : Type} [Nonempty β] {R : α → β → Prop} {l : List α} (h : ∀ a ∈ l, ∃ b, R a b) :
    ∃ r, List.Forall₂ R l r := by
  choose! g hg using h
  exact ⟨l.map g, List.forall₂_map_right_iff.mpr (List.forall₂_same.mpr hg)⟩

/-- A line that means something, its operands as many as the arity, has words. -/
theorem exists_words? (hd : DistinctLabels program) {l : AsmLine}
    (harity : ∀ opc operands, l = .op opc operands → operands.length = opc.arity) (hl : LineMeans program l) :
    ∃ ws, l.words? (labelsFrom 0 program) = some ws := by
  cases l with
  | label name => exact ⟨[], rfl⟩
  | op opc operands =>
    obtain ⟨vs, hvs⟩ := exists_forall₂ fun o ho =>
      (hl o ho).imp fun _ => operand_word?_of_means hd
    exact ⟨_, words?_op.mpr ⟨harity opc operands rfl, vs, hvs, rfl⟩⟩
  | words vs =>
    obtain ⟨ws, hws⟩ := exists_forall₂ fun v hv =>
      (hl v hv).imp fun _ hw => word?_eq_some.mpr (int?_of_valueMeans hd hw)
    exact ⟨ws, mapM_eq_some.mpr hws⟩

theorem exists_assemble (hd : DistinctLabels program)
    (harity : ∀ opc operands, .op opc operands ∈ program → operands.length = opc.arity)
    (hmeans : ∀ l ∈ program, LineMeans program l) : ∃ ws, assemble program = some ws := by
  obtain ⟨wss, hwss⟩ := exists_forall₂ fun l hl =>
    exists_words? hd (fun opc operands h => harity opc operands (h ▸ hl)) (hmeans l hl)
  exact ⟨_, assemble_eq_some.mpr ⟨wss, hwss, rfl⟩⟩

/-! Where the words of an assembled program stand. -/

theorem assemble_length (h : assemble program = some ws) : ws.length = asmLength program := by
  obtain ⟨wss, hwss, rfl⟩ := assemble_eq_some.mp h
  exact flatten_length hwss

theorem forall₂_getElem? {α β : Type} {R : α → β → Prop} {l : List α} {r : List β} {j : Nat} {a : α}
    (h : List.Forall₂ R l r) (ha : l[j]? = some a) : ∃ b, r[j]? = some b ∧ R a b := by
  obtain ⟨hj, rfl⟩ := List.getElem?_eq_some_iff.mp ha
  have hj' : j < r.length := h.length_eq ▸ hj
  exact ⟨r[j], List.getElem?_eq_getElem hj', h.get hj hj'⟩

/-- An instruction's canonical word, then its operand words in order. -/
theorem assemble_op {before after : List AsmLine} {opc : Opcode} {operands : List AsmOperand}
    (h : assemble program = some ws) (hsplit : program = before ++ .op opc operands :: after) :
    ws[asmLength before]? = some (BitVec.ofNat 64 (canonicalNat opc (operands.map AsmOperand.mode))) ∧
    ∀ j o, operands[j]? = some o →
      ∃ w, ws[asmLength before + 1 + j]? = some w ∧ OperandMeans program o w := by
  rw [hsplit] at h
  obtain ⟨lw, hlw, hplace⟩ := assemble_line h
  rw [← hsplit] at hlw
  obtain ⟨-, vs, hvs, rfl⟩ := words?_op.mp hlw
  refine ⟨hplace 0 (Nat.succ_pos _), fun j o ho => ?_⟩
  obtain ⟨w, hw, hmeans⟩ := forall₂_getElem? hvs ho
  obtain ⟨hj, -⟩ := List.getElem?_eq_some_iff.mp hw
  refine ⟨w, ?_, operandMeans_of_word? hmeans⟩
  rw [Nat.add_assoc, Nat.add_comm 1 j, hplace (j + 1) (Nat.succ_lt_succ hj), List.getElem?_cons_succ, hw]

/-- `.word` places a Word for each of its values. -/
theorem assemble_words {before after : List AsmLine} {vs : List AsmValue} {j : Nat} {v : AsmValue}
    (h : assemble program = some ws) (hsplit : program = before ++ .words vs :: after) (hv : vs[j]? = some v) :
    ∃ w, ws[asmLength before + j]? = some w ∧ ValueMeans program v w.toInt := by
  rw [hsplit] at h
  obtain ⟨lw, hlw, hplace⟩ := assemble_line h
  rw [← hsplit] at hlw
  obtain ⟨w, hw, hvw⟩ := forall₂_getElem? (mapM_eq_some.mp hlw) hv
  obtain ⟨hj, -⟩ := List.getElem?_eq_some_iff.mp hw
  exact ⟨w, by rw [hplace j hj, hw], valueMeans_of_int? (word?_eq_some.mp hvw)⟩

/-! The disassembler. -/

/-- An instruction's own words decode to it, whatever follows. -/
theorem decode_encoded (strict : Bool) (i : Instr) (rest : List Word) :
    decode strict (BitVec.ofNat 64 (encodeNat i)) (i.params.map Param.value ++ rest) = .ok i := by
  have hlt := modeWord_lt (i.params.map Param.mode)
  rw [decode_eq_ok, toNat_encodeNat, encodeNat_div]
  refine ⟨toInt_encodeNat i, encodeNat_mod i, List.prefix_append _ _, ?_, fun _ => ?_⟩
  · rw [modesAre_iff, Nat.mod_eq_of_lt (by simpa using hlt)]
  · exact Nat.div_eq_of_lt (modeWord_params_lt i)

theorem disassemble_encoded (i : Instr) (rest : List Word) :
    disassemble (BitVec.ofNat 64 (encodeNat i)) (i.params.map Param.value ++ rest) = i.text := by
  unfold disassemble
  rw [decode_encoded]
  exact if_pos (toNat_encodeNat i)

/-- A word that is no instruction's canonical word, decodable or not. -/
theorem disassemble_not_canonical {raw : Word} (words : List Word) (h : ∀ i, raw.toNat ≠ encodeNat i) :
    disassemble raw words = ".word " ++ toString raw.toInt := by
  unfold disassemble
  cases decode false raw words with
  | ok i => exact if_neg (h i)
  | raise f => rfl

/-- Settles O10: a meaningful program assembles, its lines' words stand in their places, and the disassembler compares the word
with the canonical one. -/
theorem assemblerEmitsCanonicalWords : Obligations.AssemblerEmitsCanonicalWords := by
  refine ⟨fun program hd _ hops hmeans => ?_, disassemble_encoded, fun _ words => disassemble_not_canonical words⟩
  obtain ⟨ws, hws⟩ := exists_assemble hd (fun opc operands hl => (hops opc operands hl).1) hmeans
  exact ⟨ws, hws, assemble_length hws, fun before after =>
    ⟨fun opc operands => assemble_op hws, fun vs hsplit j n => assemble_words hws hsplit⟩⟩

end Sys2Proof.Proofs.AssembledWords

/-! The engine (40_engine.md): what a step gives for the fetched instruction, and what becomes of the engine state and the pc. -/

namespace Sys2Proof.Proofs.Engine

open Sys2Proof.Machine Sys2Proof.Laws Sys2Proof.Proofs.QueueAndLog

variable {s t u : State} {i : Instr}

/-! The step from the fetch (R90). -/

theorem fetch_of_invalid_pc (h : s.pc.toInt < 0 ∨ addrMax < s.pc.toInt) : fetch s = .raise .invalidPc :=
  if_pos h

theorem step_of_fetch_ok (hr : s.engine = .running) (hf : fetch s = .ok i) : step s = finish (exec i s) := by
  simp only [step, hr, instructionStep, hf]

theorem eq_endOfStep_of_exec (hr : s.engine = .running) (h : step s = .next t) (hf : fetch s = .ok i)
    (he : exec i s = .next u) : t = endOfStep u :=
  Host.Outcome.next.inj (h.symm.trans (step_of_exec hr hf he))

theorem eq_endOfStep_of_raise {f : FaultKind} (hr : s.engine = .running) (h : step s = .next t)
    (hf : fetch s = .raise f) : t = endOfStep (takeFault f s) :=
  Host.Outcome.next.inj (h.symm.trans (step_of_raise hr hf))

/-! The instructions that leave RUNNING without a fault (42_io.md R115, 46_halt.md R135). -/

theorem exec_input_of_empty {p : Param} {c : Nat} (hc : addressOf p s = .ok c) (hq : s.inQ = []) :
    exec (.input p) s = .next { s with engine := .suspended } := by
  simp only [exec, execInput, hc, hq, ok_bind, commitOrFault]

theorem exec_halt_of_le (h : s.pc.toInt + 1 ≤ wordMax) :
    exec .halt s = .next { s with engine := .halted, pc := BitVec.ofInt 64 (s.pc.toInt + 1) } := by
  have hn : nextPc s 0 = .ok (BitVec.ofInt 64 (s.pc.toInt + 1)) := by
    simpa using nextPc_of_le (s := s) (n := 0) (by simpa using h)
  simp only [exec, execHalt, hn, ok_bind, commitOrFault]

/-! The engine state (R101). -/

/-- An instruction keeps the engine state, or it is an Input on an empty queue, a Halt or a fault. -/
theorem effect_engine (h : Effect s i u) :
    u.engine = s.engine ∨
    (u.engine = .suspended ∧ ∃ p c, i = .input p ∧ addressOf p s = .ok c ∧ s.inQ = []) ∨
    (u.engine = .halted ∧ i = .halt ∧ s.pc.toInt + 1 ≤ wordMax) ∨
    (u.engine = .faulted ∧ ∃ f, u = takeFault f s) := by
  cases h with
  | fault f => exact .inr (.inr (.inr ⟨rfl, f, rfl⟩))
  | suspend p c hc hq => exact .inr (.inl ⟨rfl, p, c, rfl, hc, hq⟩)
  | halt npc hp => exact .inr (.inr (.inl ⟨rfl, rfl, hp ▸ (toInt_range npc).2⟩))
  | store | input | output | jump | fallThrough | adjust => exact .inl rfl

/-- Only a fault entry leads a running instruction to FAULTED. -/
theorem effect_faulted (hr : s.engine = .running) (h : Effect s i u) (hu : u.engine = .faulted) :
    ∃ f, u = takeFault f s := by
  simpa [hu, hr] using effect_engine h

/-- `effect_engine` for a whole step; a fault of the fetch is the fourth row's other cause. -/
theorem running_step_engine (hr : s.engine = .running) (h : step s = .next t) :
    t.engine = .running ∨
    (t.engine = .suspended ∧ ∃ p c, fetch s = .ok (.input p) ∧ addressOf p s = .ok c ∧ s.inQ = []) ∨
    (t.engine = .halted ∧ fetch s = .ok .halt ∧ s.pc.toInt + 1 ≤ wordMax) ∨
    (t.engine = .faulted ∧ ((∃ f, fetch s = .raise f) ∨
      ∃ i f, fetch s = .ok i ∧ exec i s = .next (takeFault f s))) := by
  rcases step_running hr h with ⟨f, hf, rfl⟩ | ⟨i, u, hf, he, rfl⟩
  · exact .inr (.inr (.inr ⟨rfl, .inl ⟨f, hf⟩⟩))
  · rcases effect_engine (exec_effect he) with hk | ⟨hk, p, c, rfl, hc, hq⟩ | ⟨hk, rfl, hp⟩ | ⟨hk, f, rfl⟩
    · exact .inl (hk.trans hr)
    · exact .inr (.inl ⟨hk, p, c, hf, hc, hq⟩)
    · exact .inr (.inr (.inl ⟨hk, hf, hp⟩))
    · exact .inr (.inr (.inr ⟨hk, .inr ⟨i, f, hf, he⟩⟩))

theorem running_step_suspended_iff (hr : s.engine = .running) (h : step s = .next t) :
    t.engine = .suspended ↔ ∃ p c, fetch s = .ok (.input p) ∧ addressOf p s = .ok c ∧ s.inQ = [] := by
  constructor
  · intro ht
    simpa [ht] using running_step_engine hr h
  · rintro ⟨p, c, hf, hc, hq⟩
    rw [eq_endOfStep_of_exec hr h hf (exec_input_of_empty hc hq), endOfStep_engine]

theorem running_step_halted_iff (hr : s.engine = .running) (h : step s = .next t) :
    t.engine = .halted ↔ fetch s = .ok .halt ∧ s.pc.toInt + 1 ≤ wordMax := by
  constructor
  · intro ht
    simpa [ht] using running_step_engine hr h
  · rintro ⟨hf, hp⟩
    rw [eq_endOfStep_of_exec hr h hf (exec_halt_of_le hp), endOfStep_engine]

theorem running_step_faulted_iff (hr : s.engine = .running) (h : step s = .next t) :
    t.engine = .faulted ↔ (∃ f, fetch s = .raise f) ∨ ∃ i f, fetch s = .ok i ∧ exec i s = .next (takeFault f s) := by
  constructor
  · intro ht
    simpa [ht] using running_step_engine hr h
  · rintro (⟨f, hf⟩ | ⟨i, f, hf, he⟩)
    · rw [eq_endOfStep_of_raise hr h hf, endOfStep_engine, takeFault_engine]
    · rw [eq_endOfStep_of_exec hr h hf he, endOfStep_engine, takeFault_engine]

theorem running_step_ne_idle (hr : s.engine = .running) (h : step s = .next t) : t.engine ≠ .idle := by
  intro ht
  simpa [ht] using running_step_engine hr h

theorem load_engine {cfg : Config} {ws : List Int} (h : load cfg ws = some s) : s.engine = .idle := by
  unfold load at h
  split at h
  · cases h; rfl
  · cases h

/-! The pc (R93). -/

/-- Only the jumps have two operands, so no other instruction has a target. -/
theorem jumpTarget?_eq_none_of_arity (s : State) (h : i.opcode.arity ≠ 2) : jumpTarget? i s = none := by
  cases i with
  | jumpIfTrue | jumpIfFalse => exact absurd rfl h
  | _ => rfl

/-- `pc'` is where an instruction that completes in `s` leaves the pc: a taken jump's target, or the default advance. -/
def PcAdvanced (i : Instr) (s : State) (pc' : Word) : Prop :=
  (∀ b, jumpTarget? i s = some b → pc' = b) ∧
  (jumpTarget? i s = none → pc'.toInt = s.pc.toInt + i.opcode.arity + 1)

theorem pcAdvanced_of_taken {b : Word} (h : jumpTarget? i s = some b) : PcAdvanced i s b := by
  simp [PcAdvanced, h]

theorem pcAdvanced_of_not_taken {npc : Word} {k : Int} (h : jumpTarget? i s = none)
    (hk : (i.opcode.arity : Int) + 1 = k) (hp : npc.toInt = s.pc.toInt + k) : PcAdvanced i s npc :=
  ⟨fun b hb => by simp [h] at hb, fun _ => by omega⟩

/-- An instruction faults or suspends and leaves the pc, or completes and moves it. -/
theorem effect_pc (h : Effect s i u) :
    ((u.engine = .faulted ∨ u.engine = .suspended) ∧ u.pc = s.pc) ∨
    ((u.engine = s.engine ∨ u.engine = .halted) ∧ PcAdvanced i s u.pc) := by
  cases h with
  | fault f => exact .inl ⟨.inl rfl, rfl⟩
  | suspend => exact .inl ⟨.inr rfl, rfl⟩
  | store p c v npc hd hn hc hp =>
    have hj := jumpTarget?_eq_none_of_arity s (i := i) (by omega)
    exact .inr ⟨.inl rfl, pcAdvanced_of_not_taken hj (by rw [hn]; rfl) hp⟩
  | jump b hj => exact .inr ⟨.inl rfl, pcAdvanced_of_taken hj⟩
  | fallThrough npc hj hn hp => exact .inr ⟨.inl rfl, pcAdvanced_of_not_taken hj (by rw [hn]; rfl) hp⟩
  | input p c v npc rest hc hq hp => exact .inr ⟨.inl rfl, pcAdvanced_of_not_taken rfl rfl hp⟩
  | output p a npc hv hp => exact .inr ⟨.inl rfl, pcAdvanced_of_not_taken rfl rfl hp⟩
  | adjust p a r npc hv hr hp => exact .inr ⟨.inl rfl, pcAdvanced_of_not_taken rfl rfl hp⟩
  | halt npc hp => exact .inr ⟨.inr rfl, pcAdvanced_of_not_taken rfl rfl hp⟩

/-- `effect_pc` for a whole step; a fault of the fetch leaves the pc. -/
theorem running_step_pc (hr : s.engine = .running) (h : step s = .next t) :
    ((t.engine = .faulted ∨ t.engine = .suspended) ∧ t.pc = s.pc) ∨
    ((t.engine = .running ∨ t.engine = .halted) ∧ ∃ i, fetch s = .ok i ∧ PcAdvanced i s t.pc) := by
  rcases step_running hr h with ⟨f, -, rfl⟩ | ⟨i, u, hf, he, rfl⟩
  · exact .inl ⟨.inl rfl, rfl⟩
  · rcases effect_pc (exec_effect he) with hstop | ⟨hgo, hp⟩
    · exact .inl hstop
    · exact .inr ⟨hr ▸ hgo, i, hf, hp⟩

/-! RUN (R98). -/

theorem step_run (he : s.engine = .idle ∨ s.engine = .suspended) {rest : List HostCommand}
    (hp : s.pending = .run :: rest) : step s = .next { s with engine := .running, pending := rest } := by
  have hn : s.engine ≠ .running := fun hr => by simp [hr] at he
  rw [step_notRunning hn, hostMove_of_head (by rw [hp]; rfl), hp]
  rcases he with he | he <;> simp only [serve, enterRun, he, List.tail_cons]

theorem step_input_of_empty {p : Param} {c : Nat} (hr : s.engine = .running) (hf : fetch s = .ok (.input p))
    (hc : addressOf p s = .ok c) (hq : s.inQ = []) :
    step s = .next { s with engine := .suspended, responses := s.responses ++ [.runSuspended] } :=
  step_of_exec hr hf (exec_input_of_empty hc hq)

/-! The obligations. -/

/-- Settles O13: between runs by the host's move, in a run by the row for each state that the step can lead to. -/
theorem engineTransitions : Obligations.EngineTransitions := by
  refine ⟨fun cfg ws s => load_engine, fun s t h => ⟨fun hi => ?_, fun he => ?_, fun hr => ?_⟩⟩
  · have hn : s.engine ≠ .running := fun hr => by simp [hr] at hi
    simp only [eq_hostMove_of_step hn h, hostMove_engine, hi, true_and]
  · have hn : s.engine ≠ .running := fun hr => by simp [hr] at he
    have hi : ¬(s.engine = .idle ∨ s.engine = .suspended) := by rcases he with he | he <;> simp [he]
    simp only [eq_hostMove_of_step hn h, hostMove_engine, hi, false_and, if_false]
  · exact ⟨running_step_suspended_iff hr h, running_step_halted_iff hr h, running_step_faulted_iff hr h,
      running_step_ne_idle hr h⟩

/-- Settles O16: the step stops with the pc left, or completes with the pc moved, and the engine state tells which. -/
theorem pcFollowsDefaultAdvance : Obligations.PcFollowsDefaultAdvance := by
  intro s t hr h
  rcases running_step_pc hr h with ⟨hstop, hpc⟩ | ⟨hgo, hpc⟩
  · exact ⟨fun _ => hpc, fun hgo => by rcases hstop with hstop | hstop <;> simp [hstop] at hgo⟩
  · exact ⟨fun hstop => by rcases hgo with hgo | hgo <;> simp [hgo] at hstop, fun _ => hpc⟩

/-- Settles O41: RUN's move, then the Input's step, whose fetch and destination do not depend on what RUN wrote. -/
theorem runWithoutInputSuspendsAgain : Obligations.RunWithoutInputSuspendsAgain := by
  intro s rest he hp
  have hrun := step_run he hp
  refine ⟨hrun, fun p c hs hf hc hq => ?_⟩
  have hinput := step_input_of_empty (s := { s with engine := .running, pending := rest }) rfl
    ((fetch_congr rfl rfl rfl rfl).trans hf) ((addressOf_congr p rfl).trans hc) hq
  rw [runSteps_succ 1 hrun, runSteps_succ 0 hinput, runSteps, hs]

/-- Settles O11: the fetch is the decoder on the words at `pc`, and each raise is the fault entry of the step. -/
theorem stepRunsDecodedInstruction : Obligations.StepRunsDecodedInstruction := by
  intro s hr
  refine ⟨fun hpc => step_of_raise hr (fetch_of_invalid_pc hpc), fun hpc => ⟨fun f hd => ?_, fun i hd => ?_⟩⟩
  · exact step_of_raise hr (by rw [fetch_of_pc hpc, hd])
  · have hf : fetch s = .ok i := by rw [fetch_of_pc hpc, hd]
    refine ⟨step_of_fetch_ok hr hf, fun p f hm hv => ?_, fun p f hd ha => ?_, fun t he ht => ?_⟩
    · exact step_of_exec hr hf (exec_of_operand_raise (.inl ⟨p, hm, hv⟩))
    · exact step_of_exec hr hf (exec_of_operand_raise (.inr ⟨p, hd, ha⟩))
    · obtain ⟨f, rfl⟩ := effect_faulted hr (exec_effect he) ht
      exact ⟨f, rfl, step_of_exec hr hf he⟩

end Sys2Proof.Proofs.Engine

/-! Add and Multiply (41_arithmetic.md): what format F3's shared shape answers once its operands resolve, the faults of operands
that do not, and the Encoding line of every instruction. The lemmas are stated for any exact result `f`. -/

namespace Sys2Proof.Proofs.Arithmetic

open Sys2Proof.Machine Sys2Proof.Laws

variable {s : State} {p1 p2 p3 : Param} {f : Int → Int → Int} {a b r npc : Word} {c : Nat}

/-! The commit (20_memory.md R42, 40_engine.md R93). -/

theorem storedResult_memWrite {n : Nat} (hp : npc.toInt = s.pc.toInt + n) :
    StoredResult s { s.memWrite c r with pc := npc } c r.toInt n :=
  ⟨congrArg BitVec.toInt (memRead_memWrite_same s c r), fun x => memRead_memWrite_other s c x r, rfl, hp, rfl⟩

/-! The checks after the operands, in the order of R110: the result, the advance, the capacity. -/

/-- With operands that resolve, what is left of an instruction of format F3. -/
theorem storeResult_of_operands (h1 : valueOf p1 s = .ok a) (h2 : valueOf p2 s = .ok b) (h3 : addressOf p3 s = .ok c) :
    storeResult f p1 p2 p3 s =
      commitOrFault s ((narrow (f a.toInt b.toInt)).bind fun r => (nextPc s 3).bind fun npc =>
        (checkCapacity s c).bind fun _ => .ok { s.memWrite c r with pc := npc }) := by
  simp only [storeResult, h1, h2, h3, ok_bind]

theorem commitOrFault_of_raise {x : Checked FaultKind State} {e : FaultKind} (h : x = .raise e) :
    FaultsWith (commitOrFault s x) s e := by
  subst h; rfl

theorem nextPc_three_eq_ok : nextPc s 3 = .ok npc ↔ npc.toInt = s.pc.toInt + 4 := by
  rw [nextPc_eq_ok, add_assoc]; rfl

theorem nextPc_three_of_overflow (h : wordMax < s.pc.toInt + 4) : nextPc s 3 = .raise .overflow :=
  nextPc_eq_raise.mpr ⟨rfl, by rwa [add_assoc]⟩

theorem exists_nextPc_three (h : s.pc.toInt + 4 ≤ wordMax) : ∃ npc, nextPc s 3 = .ok npc :=
  ⟨_, nextPc_of_le (by rwa [add_assoc])⟩

/-- A result outside the Word range is Overflow, whatever the advance and the destination are. -/
theorem storeResult_of_overflow (h1 : valueOf p1 s = .ok a) (h2 : valueOf p2 s = .ok b) (h3 : addressOf p3 s = .ok c)
    (hr : f a.toInt b.toInt < wordMin ∨ wordMax < f a.toInt b.toInt) :
    FaultsWith (storeResult f p1 p2 p3 s) s .overflow := by
  have hn : narrow (f a.toInt b.toInt) = .raise .overflow := narrow_eq_raise.mpr ⟨rfl, by omega⟩
  rw [storeResult_of_operands h1 h2 h3]
  exact commitOrFault_of_raise (by rw [hn, raise_bind])

/-- A result in the Word range is stored, or turned away by the advance or the capacity. -/
theorem storeResult_of_fits (h1 : valueOf p1 s = .ok a) (h2 : valueOf p2 s = .ok b) (h3 : addressOf p3 s = .ok c)
    (hmin : wordMin ≤ f a.toInt b.toInt) (hmax : f a.toInt b.toInt ≤ wordMax) :
    StoresOrFaults (storeResult f p1 p2 p3 s) s c (f a.toInt b.toInt) := by
  obtain ⟨r, hn⟩ : ∃ r, narrow (f a.toInt b.toInt) = .ok r := ⟨_, narrow_of_range ⟨hmin, hmax⟩⟩
  rw [storeResult_of_operands h1 h2 h3, hn, ok_bind, ← narrow_eq_ok.mp hn]
  refine ⟨fun hpc hadm => ?_, fun hpc => ?_, fun hpc hadm => ?_⟩
  · obtain ⟨npc, hnpc⟩ := exists_nextPc_three hpc
    have hcap : checkCapacity s c = .ok () := checkCapacity_eq_ok.mpr hadm
    rw [hnpc, ok_bind, hcap, ok_bind]
    exact ⟨_, rfl, storedResult_memWrite (nextPc_three_eq_ok.mp hnpc)⟩
  · exact commitOrFault_of_raise (by rw [nextPc_three_of_overflow hpc, raise_bind])
  · obtain ⟨npc, hnpc⟩ := exists_nextPc_three hpc
    have hcap : checkCapacity s c = .raise .resourceExhausted := checkCapacity_eq_raise.mpr ⟨rfl, hadm⟩
    exact commitOrFault_of_raise (by rw [hnpc, ok_bind, hcap, raise_bind])

/-! The operands (60_exceptions.md R162) and the Encoding line (30_encoding.md R66, R67). -/

/-- An instruction with two sources and a destination takes InvalidOperand for any of them. -/
theorem operandFaults_of_operands {mk : Param → Param → Param → Instr}
    (hs : ∀ p1 p2 p3, (mk p1 p2 p3).sources = [p1, p2]) (hd : ∀ p1 p2 p3, (mk p1 p2 p3).destination = some p3) :
    OperandFaults mk := fun p1 p2 p3 _ =>
  ⟨fun h => exec_of_operand_raise (.inl ⟨p1, by simp [hs], h⟩),
    fun _ _ h => exec_of_operand_raise (.inl ⟨p2, by simp [hs], h⟩),
    fun _ _ _ _ h => exec_of_operand_raise (.inr ⟨p3, hd p1 p2 p3, h⟩)⟩

/-- Dropping the opcode's two digits shifts the mode digits down by two. -/
theorem digit_div_hundred (k v : Nat) : digit k (v / 100) = digit (k + 2) v := by
  rw [digit_succ, digit_succ, Nat.div_div_eq_div_mul]

/-- A word of any instruction has its opcode's number in the low two digits and its modes in the digits above them. -/
theorem encodedAs_opcode_number (i : Instr) : EncodedAs i.opcode.number i := by
  intro strict raw words h
  obtain ⟨h0, hop, -, hmodes, -⟩ := decode_eq_ok.mp h
  exact ⟨h0, hop, fun j p hj => (hmodes j p hj).trans (digit_div_hundred j raw.toNat)⟩

/-! The obligations. -/

/-- Settles O24: format F3's shape with the exact sum. -/
theorem addStoresExactSum : Obligations.AddStoresExactSum := by
  refine ⟨fun p1 p2 p3 s a b c h1 h2 h3 => ?_, operandFaults_of_operands (fun _ _ _ => rfl) (fun _ _ _ => rfl),
    fun p1 p2 p3 => encodedAs_opcode_number (.add p1 p2 p3)⟩
  rw [exec_add]
  exact ⟨storeResult_of_fits h1 h2 h3, storeResult_of_overflow h1 h2 h3⟩

/-- Settles O25: format F3's shape with the exact product. -/
theorem mulStoresExactProduct : Obligations.MulStoresExactProduct := by
  refine ⟨fun p1 p2 p3 s a b c h1 h2 h3 => ?_, operandFaults_of_operands (fun _ _ _ => rfl) (fun _ _ _ => rfl),
    fun p1 p2 p3 => encodedAs_opcode_number (.mul p1 p2 p3)⟩
  rw [exec_mul]
  exact ⟨storeResult_of_fits h1 h2 h3, storeResult_of_overflow h1 h2 h3⟩

end Sys2Proof.Proofs.Arithmetic

/-! Input and Output (42_io.md): what each answers once its operand resolves; the operand faults and the Encoding lines are those
of every instruction. -/

namespace Sys2Proof.Proofs.InputOutput

open Sys2Proof.Machine Sys2Proof.Laws Sys2Proof.Proofs.Arithmetic

variable {s : State} {p : Param} {a v npc : Word} {c : Nat} {rest : List Word}

/-! The advance of an instruction with one operand (40_engine.md R93, R94). -/

theorem nextPc_one_eq_ok : nextPc s 1 = .ok npc ↔ npc.toInt = s.pc.toInt + 2 := by
  rw [nextPc_eq_ok, add_assoc]; rfl

theorem nextPc_one_of_overflow (h : wordMax < s.pc.toInt + 2) : nextPc s 1 = .raise .overflow :=
  nextPc_eq_raise.mpr ⟨rfl, by rwa [add_assoc]⟩

theorem exists_nextPc_one (h : s.pc.toInt + 2 ≤ wordMax) : ∃ npc, nextPc s 1 = .ok npc :=
  ⟨_, nextPc_of_le (by rwa [add_assoc])⟩

/-! Input with an element to consume (R115): the advance, then the capacity; the pop is part of the commit. -/

theorem exec_input_of_cons (hc : addressOf p s = .ok c) (hq : s.inQ = v :: rest) :
    exec (.input p) s =
      commitOrFault s ((nextPc s 1).bind fun npc =>
        (checkCapacity s c).bind fun _ => .ok { s.memWrite c v with inQ := rest, pc := npc }) := by
  simp only [exec, execInput, hc, hq, ok_bind]

theorem exec_input_of_admitted (hc : addressOf p s = .ok c) (hq : s.inQ = v :: rest) (hpc : s.pc.toInt + 2 ≤ wordMax)
    (hadm : s.memAdmits c = true) :
    ∃ t, exec (.input p) s = .next t ∧ StoredResult { s with inQ := rest } t c v.toInt 2 := by
  obtain ⟨npc, hnpc⟩ := exists_nextPc_one hpc
  have hcap : checkCapacity s c = .ok () := checkCapacity_eq_ok.mpr hadm
  rw [exec_input_of_cons hc hq, hnpc, ok_bind, hcap, ok_bind]
  exact ⟨_, rfl, storedResult_memWrite (s := { s with inQ := rest }) (nextPc_one_eq_ok.mp hnpc)⟩

theorem exec_input_of_overflow (hc : addressOf p s = .ok c) (hq : s.inQ = v :: rest) (hpc : wordMax < s.pc.toInt + 2) :
    FaultsWith (exec (.input p) s) s .overflow := by
  rw [exec_input_of_cons hc hq]
  exact commitOrFault_of_raise (by rw [nextPc_one_of_overflow hpc, raise_bind])

theorem exec_input_of_refused (hc : addressOf p s = .ok c) (hq : s.inQ = v :: rest) (hpc : s.pc.toInt + 2 ≤ wordMax)
    (hadm : s.memAdmits c = false) : FaultsWith (exec (.input p) s) s .resourceExhausted := by
  obtain ⟨npc, hnpc⟩ := exists_nextPc_one hpc
  have hcap : checkCapacity s c = .raise .resourceExhausted := checkCapacity_eq_raise.mpr ⟨rfl, hadm⟩
  rw [exec_input_of_cons hc hq]
  exact commitOrFault_of_raise (by rw [hnpc, ok_bind, hcap, raise_bind])

/-! Output with an operand that resolves (R116): only the advance can fail. -/

theorem exec_output_of_value (hv : valueOf p s = .ok a) :
    exec (.output p) s =
      commitOrFault s ((nextPc s 1).bind fun npc => .ok { s with outLog := s.outLog ++ [a], pc := npc }) := by
  simp only [exec, execOutput, hv, ok_bind]

theorem exec_output_of_le (hv : valueOf p s = .ok a) (hpc : s.pc.toInt + 2 ≤ wordMax) :
    ∃ t, exec (.output p) s = .next t ∧ t.pc.toInt = s.pc.toInt + 2 ∧
      t = { s with outLog := s.outLog ++ [a], pc := t.pc } := by
  obtain ⟨npc, hnpc⟩ := exists_nextPc_one hpc
  rw [exec_output_of_value hv, hnpc, ok_bind]
  exact ⟨_, rfl, nextPc_one_eq_ok.mp hnpc, rfl⟩

theorem exec_output_of_overflow (hv : valueOf p s = .ok a) (hpc : wordMax < s.pc.toInt + 2) :
    FaultsWith (exec (.output p) s) s .overflow := by
  rw [exec_output_of_value hv]
  exact commitOrFault_of_raise (by rw [nextPc_one_of_overflow hpc, raise_bind])

/-! The obligations. -/

/-- Settles O28: the destination's fault, the empty queue, or the element consumed or kept by the check that turns it away. -/
theorem inputConsumesOrSuspends : Obligations.InputConsumesOrSuspends := by
  refine ⟨fun p s => ⟨fun hf => ?_, fun c hc => ⟨fun hq => ?_, fun v rest hq => ⟨?_, ?_, ?_⟩⟩⟩,
    fun p => encodedAs_opcode_number (.input p)⟩
  · exact exec_of_operand_raise (.inr ⟨p, rfl, hf⟩)
  · exact Engine.exec_input_of_empty hc hq
  · exact exec_input_of_admitted hc hq
  · exact exec_input_of_overflow hc hq
  · exact exec_input_of_refused hc hq

/-- Settles O29: the operand's fault, or the value appended unless the advance overflows. -/
theorem outputAppendsValue : Obligations.OutputAppendsValue := by
  refine ⟨fun p s => ⟨fun hf => ?_, fun a hv => ⟨?_, ?_⟩⟩, fun p => encodedAs_opcode_number (.output p)⟩
  · exact exec_of_operand_raise (.inl ⟨p, List.mem_singleton_self p, hf⟩)
  · exact exec_output_of_le hv
  · exact exec_output_of_overflow hv

end Sys2Proof.Proofs.InputOutput

/-! JumpIfTrue and JumpIfFalse (43_jumps.md): what their shared shape answers once both operands resolve, stated for any
condition `taken`; the operand faults and the Encoding lines are those of every instruction. -/

namespace Sys2Proof.Proofs.Jumps

open Sys2Proof.Machine Sys2Proof.Laws Sys2Proof.Proofs.Arithmetic

variable {s : State} {p1 p2 : Param} {taken : Word → Bool} {a b npc : Word}

/-! The advance of an instruction with two operands (40_engine.md R93, R94). -/

theorem nextPc_two_eq_ok : nextPc s 2 = .ok npc ↔ npc.toInt = s.pc.toInt + 3 := by
  rw [nextPc_eq_ok, add_assoc]; rfl

theorem nextPc_two_of_overflow (h : wordMax < s.pc.toInt + 3) : nextPc s 2 = .raise .overflow :=
  nextPc_eq_raise.mpr ⟨rfl, by rwa [add_assoc]⟩

theorem exists_nextPc_two (h : s.pc.toInt + 3 ≤ wordMax) : ∃ npc, nextPc s 2 = .ok npc :=
  ⟨_, nextPc_of_le (by rwa [add_assoc])⟩

/-! The shared shape with operands that resolve (92_eei_decisions.md D11): only a jump that is not taken computes an advance. -/

theorem jumpIf_of_taken (h1 : valueOf p1 s = .ok a) (h2 : valueOf p2 s = .ok b) (ht : taken a = true) :
    jumpIf taken p1 p2 s = .next { s with pc := b } := by
  simp only [jumpIf, h1, h2, ok_bind, if_pos ht, commitOrFault]

theorem jumpIf_of_not_taken (h1 : valueOf p1 s = .ok a) (h2 : valueOf p2 s = .ok b) (ht : ¬taken a = true) :
    jumpIf taken p1 p2 s = commitOrFault s ((nextPc s 2).bind fun npc => .ok { s with pc := npc }) := by
  simp only [jumpIf, h1, h2, ok_bind, if_neg ht]

theorem jumpIf_of_not_taken_of_le (h1 : valueOf p1 s = .ok a) (h2 : valueOf p2 s = .ok b) (ht : ¬taken a = true)
    (hpc : s.pc.toInt + 3 ≤ wordMax) :
    ∃ t, jumpIf taken p1 p2 s = .next t ∧ t.pc.toInt = s.pc.toInt + 3 ∧ t = { s with pc := t.pc } := by
  obtain ⟨npc, hnpc⟩ := exists_nextPc_two hpc
  rw [jumpIf_of_not_taken h1 h2 ht, hnpc, ok_bind]
  exact ⟨_, rfl, nextPc_two_eq_ok.mp hnpc, rfl⟩

theorem jumpIf_of_not_taken_of_overflow (h1 : valueOf p1 s = .ok a) (h2 : valueOf p2 s = .ok b) (ht : ¬taken a = true)
    (hpc : wordMax < s.pc.toInt + 3) : FaultsWith (jumpIf taken p1 p2 s) s .overflow := by
  rw [jumpIf_of_not_taken h1 h2 ht]
  exact commitOrFault_of_raise (by rw [nextPc_two_of_overflow hpc, raise_bind])

/-- Both operands are resolved first; then the condition decides between the target and the default advance. `jumps` and `stays`
are the conditions under which the instruction's rule says the jump is taken and not taken. -/
theorem jumpIf_answers {jumps stays : Word → Prop} (hjumps : ∀ a, jumps a → taken a = true)
    (hstays : ∀ a, stays a → ¬taken a = true) (p1 p2 : Param) (s : State) :
    (valueOf p1 s = .raise .invalidOperand → FaultsWith (jumpIf taken p1 p2 s) s .invalidOperand) ∧
    (∀ a, valueOf p1 s = .ok a →
      (valueOf p2 s = .raise .invalidOperand → FaultsWith (jumpIf taken p1 p2 s) s .invalidOperand) ∧
      (∀ b, valueOf p2 s = .ok b →
        (jumps a → jumpIf taken p1 p2 s = .next { s with pc := b }) ∧
        (stays a → s.pc.toInt + 3 ≤ wordMax →
          ∃ t, jumpIf taken p1 p2 s = .next t ∧ t.pc.toInt = s.pc.toInt + 3 ∧ t = { s with pc := t.pc }) ∧
        (stays a → wordMax < s.pc.toInt + 3 → FaultsWith (jumpIf taken p1 p2 s) s .overflow))) := by
  refine ⟨fun hf => ?_, fun a h1 => ⟨fun hf => ?_, fun b h2 => ⟨fun ha => ?_, fun ha => ?_, fun ha => ?_⟩⟩⟩
  · exact jumpIf_of_raise (.inl hf)
  · exact jumpIf_of_raise (.inr hf)
  · exact jumpIf_of_taken h1 h2 (hjumps a ha)
  · exact jumpIf_of_not_taken_of_le h1 h2 (hstays a ha)
  · exact jumpIf_of_not_taken_of_overflow h1 h2 (hstays a ha)

/-! The obligations. -/

/-- Settles O30: the shared shape, taken for every condition but 0. -/
theorem jumpIfTrueLoadsPc : Obligations.JumpIfTrueLoadsPc := by
  refine ⟨fun p1 p2 s => ?_, fun p1 p2 => encodedAs_opcode_number (.jumpIfTrue p1 p2)⟩
  rw [exec_jumpIfTrue]
  exact jumpIf_answers (fun _ ha => bne_iff_ne.mpr ha) (fun _ ha ht => bne_iff_ne.mp ht ha) p1 p2 s

/-- Settles O31: the shared shape, taken for the condition 0 only. -/
theorem jumpIfFalseLoadsPc : Obligations.JumpIfFalseLoadsPc := by
  refine ⟨fun p1 p2 s => ?_, fun p1 p2 => encodedAs_opcode_number (.jumpIfFalse p1 p2)⟩
  rw [exec_jumpIfFalse]
  exact jumpIf_answers (fun _ ha => beq_iff_eq.mpr ha) (fun _ ha ht => ha (beq_iff_eq.mp ht)) p1 p2 s

end Sys2Proof.Proofs.Jumps

/-! LessThan and Equal (44_compare.md): format F3's shared shape with a flag, the Word 1 or 0, as its exact result. A flag never
leaves the Word range, so only the advance and the capacity can turn the store away. -/

namespace Sys2Proof.Proofs.Compare

open Sys2Proof.Machine Sys2Proof.Laws Sys2Proof.Proofs.Arithmetic

variable {s : State} {p1 p2 p3 : Param} {a b : Word} {c : Nat}

theorem flag_in_word_range (P : Prop) [Decidable P] :
    wordMin ≤ (if P then 1 else 0 : Int) ∧ (if P then 1 else 0 : Int) ≤ wordMax := by
  split
  · decide
  · decide

/-- The flag of any relation between the operands' values is stored, or turned away by the advance or the capacity. -/
theorem storeResult_of_flag {R : Int → Int → Prop} [DecidableRel R] (h1 : valueOf p1 s = .ok a) (h2 : valueOf p2 s = .ok b)
    (h3 : addressOf p3 s = .ok c) :
    StoresOrFaults (storeResult (fun x y => if R x y then 1 else 0) p1 p2 p3 s) s c (if R a.toInt b.toInt then 1 else 0) := by
  obtain ⟨hmin, hmax⟩ := flag_in_word_range (R a.toInt b.toInt)
  exact storeResult_of_fits h1 h2 h3 hmin hmax

/-! The obligations. -/

/-- Settles O26: format F3's shape with the flag of the signed order. -/
theorem lessThanStoresComparison : Obligations.LessThanStoresComparison := by
  refine ⟨fun p1 p2 p3 s a b c h1 h2 h3 => ?_, operandFaults_of_operands (fun _ _ _ => rfl) (fun _ _ _ => rfl),
    fun p1 p2 p3 => encodedAs_opcode_number (.lessThan p1 p2 p3)⟩
  rw [exec_lessThan]
  exact storeResult_of_flag h1 h2 h3

/-- Settles O27: format F3's shape with the flag of equality; two Words are equal exactly where their values are. -/
theorem equalStoresComparison : Obligations.EqualStoresComparison := by
  refine ⟨fun p1 p2 p3 s a b c h1 h2 h3 => ?_, operandFaults_of_operands (fun _ _ _ => rfl) (fun _ _ _ => rfl),
    fun p1 p2 p3 => encodedAs_opcode_number (.equal p1 p2 p3)⟩
  have hflag : (if a = b then 1 else 0 : Int) = if a.toInt = b.toInt then 1 else 0 := if_congr BitVec.toInt_inj.symm rfl rfl
  rw [exec_equal, hflag]
  exact storeResult_of_flag h1 h2 h3

end Sys2Proof.Proofs.Compare

/-! AdjustRelativeBase (45_relative_base.md): what it answers once its operand resolves with the old base; the operand fault and
the Encoding line are those of every instruction. -/

namespace Sys2Proof.Proofs.RelativeBase

open Sys2Proof.Machine Sys2Proof.Laws Sys2Proof.Proofs.Arithmetic Sys2Proof.Proofs.InputOutput

variable {s : State} {p : Param} {a r : Word}

/-! An operand that resolves (R130): the sum is narrowed first, then the advance; either can only overflow. -/

theorem exec_adjustRelativeBase_of_value (hv : valueOf p s = .ok a) :
    exec (.adjustRelativeBase p) s =
      commitOrFault s ((narrow (s.rb.toInt + a.toInt)).bind fun r =>
        (nextPc s 1).bind fun npc => .ok { s with rb := r, pc := npc }) := by
  simp only [exec, execAdjustRelativeBase, hv, ok_bind]

theorem exec_adjustRelativeBase_of_sum_overflow (hv : valueOf p s = .ok a)
    (hsum : s.rb.toInt + a.toInt < wordMin ∨ wordMax < s.rb.toInt + a.toInt) :
    FaultsWith (exec (.adjustRelativeBase p) s) s .overflow := by
  have hn : narrow (s.rb.toInt + a.toInt) = .raise .overflow := narrow_eq_raise.mpr ⟨rfl, by omega⟩
  rw [exec_adjustRelativeBase_of_value hv]
  exact commitOrFault_of_raise (by rw [hn, raise_bind])

/-- With a sum that is the Word `r`, only the advance is left to check. -/
theorem exec_adjustRelativeBase_of_sum (hv : valueOf p s = .ok a) (hr : narrow (s.rb.toInt + a.toInt) = .ok r) :
    exec (.adjustRelativeBase p) s =
      commitOrFault s ((nextPc s 1).bind fun npc => .ok { s with rb := r, pc := npc }) := by
  rw [exec_adjustRelativeBase_of_value hv, hr, ok_bind]

theorem exec_adjustRelativeBase_of_le (hv : valueOf p s = .ok a) (hr : narrow (s.rb.toInt + a.toInt) = .ok r)
    (hpc : s.pc.toInt + 2 ≤ wordMax) :
    ∃ t, exec (.adjustRelativeBase p) s = .next t ∧ t.rb.toInt = s.rb.toInt + a.toInt ∧
      t.pc.toInt = s.pc.toInt + 2 ∧ t = { s with rb := t.rb, pc := t.pc } := by
  obtain ⟨npc, hnpc⟩ := exists_nextPc_one hpc
  rw [exec_adjustRelativeBase_of_sum hv hr, hnpc, ok_bind]
  exact ⟨_, rfl, narrow_eq_ok.mp hr, nextPc_one_eq_ok.mp hnpc, rfl⟩

theorem exec_adjustRelativeBase_of_advance_overflow (hv : valueOf p s = .ok a)
    (hr : narrow (s.rb.toInt + a.toInt) = .ok r) (hpc : wordMax < s.pc.toInt + 2) :
    FaultsWith (exec (.adjustRelativeBase p) s) s .overflow := by
  rw [exec_adjustRelativeBase_of_sum hv hr]
  exact commitOrFault_of_raise (by rw [nextPc_one_of_overflow hpc, raise_bind])

/-! The obligation. -/

/-- Settles O32: the operand's fault, or the base moved unless the sum or the advance overflows. -/
theorem adjustRelativeBaseAddsValue : Obligations.AdjustRelativeBaseAddsValue := by
  refine ⟨fun p s => ⟨fun hf => ?_, fun a hv => ⟨fun hmin hmax => ?_, fun hsum => ?_⟩⟩,
    fun p => encodedAs_opcode_number (.adjustRelativeBase p)⟩
  · exact exec_of_operand_raise (.inl ⟨p, List.mem_singleton_self p, hf⟩)
  · have hr := narrow_of_range ⟨hmin, hmax⟩
    exact ⟨exec_adjustRelativeBase_of_le hv hr, exec_adjustRelativeBase_of_advance_overflow hv hr⟩
  · exact exec_adjustRelativeBase_of_sum_overflow hv hsum

end Sys2Proof.Proofs.RelativeBase

/-! Halt (46_halt.md): the advance that fits and the one that overflows, HALTED under the host's moves, and the words that decode
to it; the Encoding line is that of every instruction. -/

namespace Sys2Proof.Proofs.Halt

open Sys2Proof.Machine Sys2Proof.Laws Sys2Proof.Proofs.Arithmetic

variable {s : State} {raw : Word}

/-! The advance of an instruction with no operands (40_engine.md R93, R94). -/

theorem nextPc_zero_of_overflow (h : wordMax < s.pc.toInt + 1) : nextPc s 0 = .raise .overflow :=
  nextPc_eq_raise.mpr ⟨rfl, by simpa using h⟩

theorem exec_halt (s : State) :
    exec .halt s = commitOrFault s ((nextPc s 0).bind fun npc => .ok { s with engine := .halted, pc := npc }) := rfl

theorem exec_halt_of_overflow (h : wordMax < s.pc.toInt + 1) : FaultsWith (exec .halt s) s .overflow := by
  rw [exec_halt]
  exact commitOrFault_of_raise (by rw [nextPc_zero_of_overflow h, raise_bind])

/-- A pc that is below WORD_MAX is its own exact successor. -/
theorem toInt_ofInt_pc_add_one (h : s.pc.toInt + 1 ≤ wordMax) :
    (BitVec.ofInt 64 (s.pc.toInt + 1)).toInt = s.pc.toInt + 1 :=
  toInt_ofInt ⟨(toInt_range s.pc).1.trans (by omega), h⟩

/-! HALTED is terminal (10_state.md R24): a step in it is the host's move, and RUN starts from IDLE and SUSPENDED only. -/

theorem step_of_halted (h : s.engine = .halted) : step s = .next (hostMove s) :=
  step_notRunning (by simp [h])

theorem hostMove_halted (h : s.engine = .halted) : (hostMove s).engine = .halted := by
  simp [hostMove_engine, h]

/-! The aliases of Halt (30_encoding.md R79): it has no mode digits, so all digits above the opcode are excess digits. -/

theorem decode_halt_of_opcode (words : List Word) (h0 : 0 ≤ raw.toInt) (hop : raw.toNat % 100 = 99) :
    decode false raw words = .ok .halt :=
  (decode_of_opcode (op := .halt) h0 hop).trans (checkExcess_eq_ok.mpr ⟨rfl, nofun⟩)

/-! The obligation. -/

/-- Settles O33: by whether the advance fits, by the host's move in HALTED, and by the decoder at opcode 99. -/
theorem haltEndsTheRun : Obligations.HaltEndsTheRun := by
  refine ⟨fun s => ⟨fun hpc => ?_, exec_halt_of_overflow, fun he => ⟨step_of_halted he, hostMove_halted he⟩⟩,
    encodedAs_opcode_number .halt, fun _ words => decode_halt_of_opcode words⟩
  exact ⟨_, Engine.exec_halt_of_le hpc, toInt_ofInt_pc_add_one hpc, rfl⟩

end Sys2Proof.Proofs.Halt

/-! The host interface (49_host_interface.md): the machine that LOAD constructs, one transaction at a time, and that a transaction
sees neither `pc` nor `rb`. -/

namespace Sys2Proof.Proofs.HostInterface

open Sys2Proof.Machine Sys2Proof.Laws Sys2Proof.Proofs.QueueAndLog

variable {s t : State} {cfg : Config} {ws : List Int} {rest : List HostCommand} {addr : Int}

/-! LOAD (R140). -/

/-- A list that LOAD accepts: it fits the address space, and each element is the integer of a Word. -/
def Loadable (ws : List Int) : Prop :=
  ws.length ≤ addrMax + 1 ∧ ∀ w ∈ ws, wordMin ≤ w ∧ w ≤ wordMax

theorem load_of_loadable (cfg : Config) (h : Loadable ws) :
    load cfg ws = some { State.reset with
      mem := Memory.ofWords 0 (ws.map (BitVec.ofInt 64)), ext := ws.length, config := cfg } :=
  if_pos h

theorem load_of_not_loadable (cfg : Config) (h : ¬Loadable ws) : load cfg ws = none :=
  if_neg h

/-- Memory loaded from integers in the Word range reads as those integers, and as 0 beyond them. -/
theorem read_ofWords_toInt (h : ∀ w ∈ ws, wordMin ≤ w ∧ w ≤ wordMax) (a : Nat) :
    ((Memory.ofWords 0 (ws.map (BitVec.ofInt 64))).read a).toInt = (ws[a]?).getD 0 := by
  have hread := read_ofWords (ws.map (BitVec.ofInt 64)) 0 a
  rw [Nat.zero_add] at hread
  rw [hread, List.getElem?_map]
  cases hw : ws[a]? with
  | none => rfl
  | some w => exact toInt_ofInt (h w (List.mem_of_getElem? hw))

/-- An instruction never leads to IDLE, and the host's move keeps the engine state or enters RUNNING. -/
theorem idle_of_step_to_idle (h : step s = .next t) (ht : t.engine = .idle) : s.engine = .idle := by
  by_cases hr : s.engine = .running
  · exact absurd ht (Engine.running_step_ne_idle hr h)
  · rw [eq_hostMove_of_step hr h, hostMove_engine] at ht
    split at ht
    · cases ht
    · exact ht

/-! One transaction (R141): the step between runs serves the host's next command. -/

theorem step_serves {c : HostCommand} (hr : s.engine ≠ .running) (hp : s.pending = c :: rest) :
    step s = .next (serve c { s with pending := rest }) := by
  rw [step_notRunning hr, hostMove_of_head (by rw [hp]; rfl), hp, List.tail_cons]

/-! PEEK (R145). -/

theorem peek_of_range (s : State) (h0 : 0 ≤ addr) (h1 : addr ≤ addrMax) :
    s.peek addr = .peek (s.memRead addr.toNat) (decide (addr < s.ext)) :=
  if_pos ⟨h0, h1⟩

theorem peek_of_outside (s : State) (h : addr < 0 ∨ addrMax < addr) : s.peek addr = .peekInvalid :=
  if_neg (by omega)

theorem step_peek (hr : s.engine ≠ .running) (hp : s.pending = .peek addr :: rest) :
    step s = .next { s with pending := rest, responses := s.responses ++ [s.peek addr] } :=
  step_serves hr hp

/-! What a transaction depends on (R148). -/

/-- STATUS is a function of the engine state and FAULT_CODE (10_state.md R25). -/
theorem status_congr (he : t.engine = s.engine) (hf : t.faultCode = s.faultCode) : t.status = s.status := by
  simp only [State.status, State.faultNumber, he, hf]

theorem hostMove_engine_of_not_run (h : s.pending.head? ≠ some .run) : (hostMove s).engine = s.engine := by
  rw [hostMove_engine, if_neg fun hrun => h hrun.2]

theorem hostMove_status_of_not_run (h : s.pending.head? ≠ some .run) : (hostMove s).status = s.status := by
  have hf : (hostMove s).faultCode = s.faultCode := by rw [hostMove_frame]
  exact status_congr (hostMove_engine_of_not_run h) hf

/-- RUN's entry decides by the engine state and answers from the fault registers (40_engine.md R95 to R98). -/
theorem enterRun_with_pc_rb (s : State) (pc rb : Word) :
    enterRun { s with pc := pc, rb := rb } = { enterRun s with pc := pc, rb := rb } := by
  dsimp only [enterRun]
  split <;> rfl

theorem serve_with_pc_rb (c : HostCommand) (s : State) (pc rb : Word) :
    serve c { s with pc := pc, rb := rb } = { serve c s with pc := pc, rb := rb } := by
  cases c with
  | run => exact enterRun_with_pc_rb s pc rb
  | feed | output | peek | isHalted | isSuspended | statusRead => rfl

theorem hostMove_with_pc_rb (s : State) (pc rb : Word) :
    hostMove { s with pc := pc, rb := rb } = { hostMove s with pc := pc, rb := rb } := by
  cases hp : s.pending with
  | nil => simp only [hostMove, hp]
  | cons c rest =>
    simp only [hostMove, hp]
    exact serve_with_pc_rb c { s with pending := rest } pc rb

/-! The obligations. -/

/-- Settles O1: LOAD by whether the list is loadable; nothing leads back to IDLE. -/
theorem loadConstructsMachine : Obligations.LoadConstructsMachine := by
  refine ⟨fun cfg ws => ⟨fun hlen hrange => ?_, fun w hw hout => ?_, fun hlen => ?_⟩, fun s t => idle_of_step_to_idle⟩
  · exact ⟨_, load_of_loadable cfg ⟨hlen, hrange⟩, read_ofWords_toInt hrange, rfl, rfl, rfl, rfl, rfl, rfl, rfl, rfl⟩
  · exact load_of_not_loadable cfg fun ⟨_, hrange⟩ => hout (hrange w hw)
  · exact load_of_not_loadable cfg fun ⟨hle, _⟩ => absurd hlen (Nat.not_lt.mpr hle)

/-- Settles O38: the step is the host's move, which has a frame, keeps STATUS unless it is RUN, and commutes with any change of
`pc` and `rb`. -/
theorem hostHasNoOtherAccess : Obligations.HostHasNoOtherAccess := by
  intro s t hr h
  obtain rfl := eq_hostMove_of_step hr h
  refine ⟨?_, fun hstatus => ?_, fun pc rb => ?_⟩
  · exact hostMove_frame s
  · by_contra hrun
    exact hstatus (hostMove_status_of_not_run hrun)
  · have hr' : ({ s with pc := pc, rb := rb } : State).engine ≠ .running := hr
    rw [step_notRunning hr', hostMove_with_pc_rb]

/-- Settles O39: FEED served. -/
theorem feedAppends : Obligations.FeedAppends := by
  intro s w rest hr hp
  exact step_serves hr hp

/-- Settles O44: PEEK served, its answer by the range of the address. -/
theorem peekAnswers : Obligations.PeekAnswers := by
  intro s addr rest hr hp
  rw [step_peek hr hp]
  refine ⟨fun h0 h1 => ?_, fun hout => ?_⟩
  · rw [peek_of_range s h0 h1]
  · rw [peek_of_outside s hout]

end Sys2Proof.Proofs.HostInterface

/-! Encoding and decoding (30_encoding.md): the words that decode to an instruction are its aliases, and an instruction whose
words are stored at `pc` is fetched. -/

namespace Sys2Proof.Proofs.EncodedWords

open Sys2Proof.Machine Sys2Proof.Laws

variable {s : State} {i : Instr} {raw : Word} {words : List Word} {a : Nat}

/-! Aliases (R79): the opcode number, the mode word and the excess digits of a word determine it. -/

/-- A word has the opcode and the mode digits of `i` exactly where it is the canonical word plus excess digits, which
are what stands above the mode digits. -/
theorem opcode_and_modes_iff (raw : Nat) (i : Instr) :
    raw % 100 = i.opcode.number ∧ ModesAre (raw / 100) i.params ↔
      raw = encodeNat i + 100 * 10 ^ i.opcode.arity * (raw / 100 / 10 ^ i.opcode.arity) := by
  have hraw := Nat.div_add_mod raw 100
  have hmd := Nat.div_add_mod (raw / 100) (10 ^ i.opcode.arity)
  have hop := encodeNat_mod i
  have hmodes := encodeNat_div i
  rw [modesAre_iff, params_length, ← hmodes, mul_assoc]
  omega

/-- What stands above the mode digits of the canonical word plus excess digits. -/
theorem excess_of_alias {raw k : Nat} (h : raw = encodeNat i + 100 * 10 ^ i.opcode.arity * k) :
    raw / 100 / 10 ^ i.opcode.arity = k := by
  have hlt : encodeNat i / 100 < 10 ^ i.opcode.arity := encodeNat_div i ▸ modeWord_params_lt i
  rw [h, mul_assoc, Nat.add_mul_div_left _ _ (by decide), Nat.add_mul_div_left _ _ (Nat.pow_pos (by decide)),
    Nat.div_eq_of_lt hlt, Nat.zero_add]

/-! Stored words (20_memory.md section 6). -/

/-- The operand words are read from the addresses after `a`, as many as are addressable. -/
theorem operandWords_prefix (s : State) (a : Nat) : s.operandWords a <+: [a + 1, a + 2, a + 3].map s.memRead :=
  (List.takeWhile_prefix _).map _

/-- What stands after `a` is where the operand words begin, once as many are addressable. -/
theorem prefix_operandWords (hlen : words.length ≤ (s.operandWords a).length)
    (hread : ∀ j w, words[j]? = some w → s.memRead (a + 1 + j) = w) : words <+: s.operandWords a := by
  refine List.prefix_of_prefix_length_le ?_ (operandWords_prefix s a) hlen
  have hthree : words.length ≤ 3 := hlen.trans (operandWords_prefix s a).length_le
  have hrange : ([a + 1, a + 2, a + 3] : List Nat) = List.range' (a + 1) 3 := rfl
  rw [List.prefix_iff_getElem?, hrange]
  intro j hj
  rw [List.getElem?_map, List.getElem?_range' (by omega), Nat.one_mul, Option.map_some,
    hread j words[j] (List.getElem?_eq_getElem hj)]

/-- After the words of `i` are stored at `a`, its operand words are the first that the decoder is given, under every policy. -/
theorem params_prefix_operandWords_storeWords (s : State) (h : a + i.opcode.arity ≤ addrMax) :
    i.params.map Param.value <+: (s.storeWords a (encode i)).operandWords a := by
  have hlen : (encode i).length = i.opcode.arity + 1 := by simp [encode, params_length]
  have hfits : a + (encode i).length ≤ addrMax + 1 := by omega
  have hext := storeWords_ext (s := s) hfits (List.cons_ne_nil _ _)
  refine prefix_operandWords ?_ fun j w hw => ?_
  · rw [List.length_map, params_length, ← Nat.not_lt,
      DecoderFaults.operandWords_length_lt_iff _ _ (opcode_arity_le i.opcode)]
    rintro ⟨j, -, hj, hr⟩
    rw [operandReadable_eq_false] at hr
    omega
  · rw [Nat.add_assoc, Nat.add_comm 1 j]
    exact storeWords_read hfits hw

/-! The obligations. -/

/-- Settles O4: the words decode to the instruction whatever follows. -/
theorem decodeOfEncode : Obligations.DecodeOfEncode := fun i strict rest =>
  ⟨_, _, rfl, AssembledWords.decode_encoded strict i rest⟩

/-- Settles O5: the excess digits are the `k` added to the canonical word, and strict decoding asks that there are none. -/
theorem decodesExactlyAliases : Obligations.DecodesExactlyAliases := by
  intro strict raw words i
  rw [decode_eq_ok]
  constructor
  · rintro ⟨h0, hop, hwords, hmodes, hstrict⟩
    exact ⟨h0, hwords, _, (opcode_and_modes_iff raw.toNat i).mp ⟨hop, hmodes⟩, hstrict⟩
  · rintro ⟨h0, hwords, k, hk, hstrict⟩
    obtain rfl := excess_of_alias hk
    obtain ⟨hop, hmodes⟩ := (opcode_and_modes_iff raw.toNat i).mpr hk
    exact ⟨h0, hop, hwords, hmodes, hstrict⟩

/-- Settles O9: the canonical word is read back at `pc`, and the operand words after it. -/
theorem storedEncodingIsFetched : Obligations.StoredEncodingIsFetched := by
  intro s i hpc hfit
  have hraw : (s.storeWords s.pc.toNat (encode i)).memRead s.pc.toNat = BitVec.ofNat 64 (encodeNat i) :=
    storeWords_read (j := 0) (by simp [encode, params_length]; omega) rfl
  obtain ⟨rest, hwords⟩ := params_prefix_operandWords_storeWords s hfit
  rw [fetch_of_pc (by rwa [storeWords_pc]), storeWords_pc, hraw, ← hwords, AssembledWords.decode_encoded]

/-- Settles O3: sixteen closed evaluations of the decoder. -/
theorem specWordsDecode : Obligations.SpecWordsDecode := by
  unfold Obligations.SpecWordsDecode
  decide

end Sys2Proof.Proofs.EncodedWords

/-! The invariant (10_state.md sections 3 and 4): LOAD gives it and every step keeps it; and so for the parameters. The canonical
form of memory, which the invariant asks for, is unique. -/

namespace Sys2Proof.Proofs.Invariant

open Sys2Proof.Machine Sys2Proof.Laws Sys2Proof.Proofs.QueueAndLog Sys2Proof.Proofs.HostInterface

variable {s t u : State} {i : Instr} {cfg : Config} {ws : List Int}

/-! What LOAD and reset give. -/

theorem loaded_of_load (h : load cfg ws = some s) :
    Loadable ws ∧ s = { State.reset with
      mem := Memory.ofWords 0 (ws.map (BitVec.ofInt 64)), ext := ws.length, config := cfg } := by
  by_cases hl : Loadable ws
  · rw [load_of_loadable cfg hl, Option.some.injEq] at h
    exact ⟨hl, h.symm⟩
  · rw [load_of_not_loadable cfg hl] at h
    cases h

/-! What each kind of change does to the invariant. -/

/-- The invariant sees the memory, the extent, the fault registers, and whether the engine is FAULTED. -/
theorem inv_congr (hs : s.Inv) (hm : t.mem = s.mem) (hx : t.ext = s.ext) (hc : t.faultCode = s.faultCode)
    (hp : t.faultPc = s.faultPc) (he : t.engine = .faulted ↔ s.engine = .faulted) : t.Inv where
  memWf := hm ▸ hs.memWf
  inExtent := by rw [hm, hx]; exact hs.inExtent
  extLe := hx ▸ hs.extLe
  codeIff := by rw [hc, he]; exact hs.codeIff
  pcUnset := by rw [hc, hp]; exact hs.pcUnset

/-- A store inside the address space keeps the invariant. -/
theorem memWrite_inv (hs : s.Inv) {c : Nat} (hc : c ≤ addrMax) (v : Word) : (s.memWrite c v).Inv where
  memWf := write_wf hs.memWf c v
  inExtent := fun d hd => by
    rw [memWrite_ext, lt_max_iff]
    rcases mem_write hd with hold | hnew
    · exact .inl (hs.inExtent d hold)
    · exact .inr (hnew ▸ Nat.lt_succ_self _)
  extLe := max_le hs.extLe (Nat.succ_le_succ hc)
  codeIff := hs.codeIff
  pcUnset := hs.pcUnset

/-- The fault entry writes the fault registers together with FAULTED. -/
theorem takeFault_inv (hs : s.Inv) (f : FaultKind) : (takeFault f s).Inv where
  memWf := hs.memWf
  inExtent := hs.inExtent
  extLe := hs.extLe
  codeIff := by simp
  pcUnset := nofun

/-- An instruction that runs keeps the invariant: it stores inside the address space, or faults, or touches none of its parts. -/
theorem effect_inv (hr : s.engine = .running) (hs : s.Inv) (h : Effect s i u) : u.Inv := by
  cases h with
  | fault f => exact takeFault_inv hs f
  | store p c v npc hd hn hc | input p c v npc rest hc =>
    exact inv_congr (memWrite_inv hs (addressOf_le hc) v) rfl rfl rfl rfl .rfl
  | suspend | halt => exact inv_congr hs rfl rfl rfl rfl (by simp [hr])
  | output | jump | fallThrough | adjust => exact inv_congr hs rfl rfl rfl rfl .rfl

theorem endOfStep_inv (hs : s.Inv) : (endOfStep s).Inv :=
  inv_congr hs rfl rfl rfl rfl .rfl

theorem hostMove_faulted_iff (s : State) : (hostMove s).engine = .faulted ↔ s.engine = .faulted := by
  rw [hostMove_engine]
  split
  · next h => rcases h.1 with he | he <;> simp [he]
  · exact .rfl

theorem hostMove_inv (hs : s.Inv) : (hostMove s).Inv := by
  rw [hostMove_frame]
  exact inv_congr hs rfl rfl rfl rfl (hostMove_faulted_iff s)

/-! The parameters (00_scope.md section 3). -/

theorem effect_config (h : Effect s i u) : u.config = s.config := by
  cases h <;> rfl

/-! Two canonical memories that read alike list the same cells (log entry 1). -/

theorem mem_iff_read {m : Memory} (hm : m.wf) (c : Nat × Word) :
    c ∈ m ↔ m.read c.1 = c.2 ∧ c.2 ≠ Memory.unlisted := by
  obtain ⟨hsorted, hlisted⟩ := hm
  refine ⟨fun hc => ⟨read_of_mem hsorted hc, hlisted c hc⟩, fun ⟨hread, hne⟩ => ?_⟩
  by_contra hc
  refine hne (hread.symm.trans (read_of_not_mem fun d hd hdc => hc ?_))
  have hval : d.2 = c.2 := (read_of_mem hsorted hd).symm.trans (hdc ▸ hread)
  exact (Prod.ext hdc hval : d = c) ▸ hd

/-! The obligations. -/

/-- Settles O52: a running step by what its instruction did, a step between runs by the host's move. -/
theorem stepKeepsInvariant : Obligations.StepKeepsInvariant := by
  intro s t hs h
  by_cases hr : s.engine = .running
  · rcases step_running hr h with ⟨f, -, rfl⟩ | ⟨i, u, -, he, rfl⟩
    · exact endOfStep_inv (takeFault_inv hs f)
    · exact endOfStep_inv (effect_inv hr hs (exec_effect he))
  · exact eq_hostMove_of_step hr h ▸ hostMove_inv hs

/-- Settles O51: the loaded cells stand below the length of the list, and no fault is recorded. -/
theorem invariantAfterLoad : Obligations.InvariantAfterLoad := by
  intro cfg ws s h
  obtain ⟨⟨hlen, -⟩, rfl⟩ := loaded_of_load h
  exact {
    memWf := ofWords_wf _ 0
    inExtent := fun c hc => by simpa using (mem_ofWords hc).2.1
    extLe := hlen
    codeIff := by simp [State.reset]
    pcUnset := fun _ => rfl }

/-- Settles O2: the empty list is loadable, and its memory has no cell. -/
theorem resetIsLoadOfEmptyList : Obligations.ResetIsLoadOfEmptyList :=
  ⟨load_of_loadable Config.spec ⟨Nat.zero_le _, nofun⟩, fun _ => rfl⟩

/-- Settles O50: reset is LOAD of the empty list. -/
theorem invariantAtReset : Obligations.InvariantAtReset :=
  invariantAfterLoad Config.spec [] State.reset resetIsLoadOfEmptyList.1

/-- Settles O46: LOAD places the parameters it is given, and neither an instruction nor the host's move writes them. -/
theorem parametersNeverChange : Obligations.ParametersNeverChange := by
  refine ⟨fun cfg ws s h => ?_, fun s t h => ?_⟩
  · rw [(loaded_of_load h).2]
  · by_cases hr : s.engine = .running
    · rcases step_running hr h with ⟨f, -, rfl⟩ | ⟨i, u, -, he, rfl⟩
      · rfl
      · exact (endOfStep_config u).trans (effect_config (exec_effect he))
    · rw [eq_hostMove_of_step hr h, hostMove_frame]

/-- Settles O19: sorted lists with the same cells are equal. -/
theorem canonicalMemoryIsDetermined : Obligations.CanonicalMemoryIsDetermined := by
  intro m n hm hn hread
  have hirrefl : Std.Irrefl fun c d : Nat × Word => c.1 < d.1 := ⟨fun c => Nat.lt_irrefl c.1⟩
  have hantisymm : Std.Antisymm fun c d : Nat × Word => c.1 < d.1 := ⟨fun c d hcd hdc => absurd hcd hdc.asymm⟩
  exact hm.1.eq_of_mem_iff hn.1 fun c => by rw [mem_iff_read hm, mem_iff_read hn, hread]

end Sys2Proof.Proofs.Invariant

/-! Faults (60_exceptions.md): every outcome is a next state, each fault is raised where the table of R161 lists it, and its entry
writes what R163 says. -/

namespace Sys2Proof.Proofs.Faults

open Sys2Proof.Machine Sys2Proof.Laws

variable {s t : State} {i : Instr} {f : FaultKind}

/-! Every outcome is a next state (log entry 11). -/

theorem exec_next (i : Instr) (s : State) : ∃ t, exec i s = .next t := by
  cases i <;> exact commitOrFault_next s _

theorem step_next (s : State) : ∃ t, step s = .next t := by
  by_cases hr : s.engine = .running
  · cases hf : fetch s with
    | raise f => exact ⟨_, step_of_raise hr hf⟩
    | ok i =>
      obtain ⟨u, he⟩ := exec_next i s
      exact ⟨_, step_of_exec hr hf he⟩
  · exact ⟨_, step_notRunning hr⟩

/-! Where a fault is raised (R161, the column "raised by"). -/

theorem fetch_raises (h : fetch s = .raise f) :
    f = .unknownOpcode ∨ f = .truncatedInstruction ∨ f = .invalidMode ∨ f = .invalidPc := by
  unfold fetch at h
  split at h
  · cases h; simp
  · split at h
    · cases h
    · next d _ =>
      cases h
      cases d <;> simp [faultOfDecode]

/-- The faults that the table lists for `i`. -/
def Listed (i : Instr) (f : FaultKind) : Prop :=
  (f = .invalidOperand ∧ i.params ≠ []) ∨ f = .overflow ∨ (f = .resourceExhausted ∧ i.destination ≠ none)

theorem listed_of_valueOf {p : Param} (hp : i.params ≠ []) (h : valueOf p s = .raise f) : Listed i f :=
  .inl ⟨valueOf_eq_raise h, hp⟩

theorem listed_of_addressOf {p : Param} (hp : i.params ≠ []) (h : addressOf p s = .raise f) : Listed i f :=
  .inl ⟨addressOf_eq_raise h, hp⟩

theorem listed_of_narrow {r : Int} (h : narrow r = .raise f) : Listed i f :=
  .inr (.inl (narrow_eq_raise.mp h).1)

theorem listed_of_checkCapacity {c : Nat} (hd : i.destination ≠ none) (h : checkCapacity s c = .raise f) : Listed i f :=
  .inr (.inr ⟨(checkCapacity_eq_raise.mp h).1, hd⟩)

/-- A chain of checks raises listed faults only, and never commits FAULTED. -/
def RaisesListed (i : Instr) (r : Checked FaultKind State) : Prop :=
  (∀ e, r = .raise e → Listed i e) ∧ ∀ t, r = .ok t → t.engine ≠ .faulted

theorem raisesListed_bind {α : Type} {x : Checked FaultKind α} {k : α → Checked FaultKind State}
    (hx : ∀ e, x = .raise e → Listed i e) (hk : ∀ a, RaisesListed i (k a)) : RaisesListed i (x.bind k) := by
  cases x with
  | ok a => exact hk a
  | raise e => exact ⟨fun e' he => by cases he; exact hx e rfl, nofun⟩

theorem raisesListed_ok (h : t.engine ≠ .faulted) : RaisesListed i (.ok t) :=
  ⟨nofun, fun u hu => by cases hu; exact h⟩

/-- The fault that a commit takes is the one its checks raise. -/
theorem listed_of_commitOrFault {r : Checked FaultKind State} (hr : RaisesListed i r)
    (h : commitOrFault s r = .next (takeFault f s)) : Listed i f := by
  obtain ⟨hraise, hok⟩ := hr
  rcases commitOrFault_eq_next.mp h with hcommit | ⟨e, he, hf⟩
  · exact absurd (takeFault_engine s f) (hok _ hcommit)
  · obtain rfl : f = e := Option.some.inj (congrArg State.faultCode hf)
    exact hraise f he

theorem storeResult_listed {g : Int → Int → Int} {p1 p2 p3 : Param} (hs : s.engine ≠ .faulted) (hp : i.params ≠ [])
    (hd : i.destination ≠ none) (h : storeResult g p1 p2 p3 s = .next (takeFault f s)) : Listed i f := by
  refine listed_of_commitOrFault ?_ h
  refine raisesListed_bind (fun _ => listed_of_valueOf hp) fun a => ?_
  refine raisesListed_bind (fun _ => listed_of_valueOf hp) fun b => ?_
  refine raisesListed_bind (fun _ => listed_of_addressOf hp) fun c => ?_
  refine raisesListed_bind (fun _ => listed_of_narrow) fun r => ?_
  refine raisesListed_bind (fun _ => listed_of_narrow) fun npc => ?_
  exact raisesListed_bind (fun _ => listed_of_checkCapacity hd) fun _ => raisesListed_ok hs

theorem jumpIf_listed {taken : Word → Bool} {p1 p2 : Param} (hs : s.engine ≠ .faulted) (hp : i.params ≠ [])
    (h : jumpIf taken p1 p2 s = .next (takeFault f s)) : Listed i f := by
  refine listed_of_commitOrFault ?_ h
  refine raisesListed_bind (fun _ => listed_of_valueOf hp) fun a => ?_
  refine raisesListed_bind (fun _ => listed_of_valueOf hp) fun b => ?_
  split
  · exact raisesListed_ok hs
  · exact raisesListed_bind (fun _ => listed_of_narrow) fun npc => raisesListed_ok hs

theorem exec_listed (hs : s.engine ≠ .faulted) (h : exec i s = .next (takeFault f s)) : Listed i f := by
  cases i with
  | add => rw [exec_add] at h; exact storeResult_listed hs nofun nofun h
  | mul => rw [exec_mul] at h; exact storeResult_listed hs nofun nofun h
  | lessThan => rw [exec_lessThan] at h; exact storeResult_listed hs nofun nofun h
  | equal => rw [exec_equal] at h; exact storeResult_listed hs nofun nofun h
  | jumpIfTrue => rw [exec_jumpIfTrue] at h; exact jumpIf_listed hs nofun h
  | jumpIfFalse => rw [exec_jumpIfFalse] at h; exact jumpIf_listed hs nofun h
  | input p =>
    refine listed_of_commitOrFault ?_ h
    refine raisesListed_bind (fun _ => listed_of_addressOf nofun) fun c => ?_
    split
    · exact raisesListed_ok nofun
    · refine raisesListed_bind (fun _ => listed_of_narrow) fun npc => ?_
      exact raisesListed_bind (fun _ => listed_of_checkCapacity nofun) fun _ => raisesListed_ok hs
  | output p =>
    refine listed_of_commitOrFault ?_ h
    refine raisesListed_bind (fun _ => listed_of_valueOf nofun) fun a => ?_
    exact raisesListed_bind (fun _ => listed_of_narrow) fun npc => raisesListed_ok hs
  | adjustRelativeBase p =>
    refine listed_of_commitOrFault ?_ h
    refine raisesListed_bind (fun _ => listed_of_valueOf nofun) fun a => ?_
    refine raisesListed_bind (fun _ => listed_of_narrow) fun r => ?_
    exact raisesListed_bind (fun _ => listed_of_narrow) fun npc => raisesListed_ok hs
  | halt =>
    refine listed_of_commitOrFault ?_ h
    exact raisesListed_bind (fun _ => listed_of_narrow) fun npc => raisesListed_ok nofun

/-- An ill-formed instruction has a destination in Immediate mode. -/
theorem imm_destination_of_not_wellFormed (h : i.wellFormed = false) : ∃ p, i.destination = some p ∧ p.mode = .imm := by
  unfold Instr.wellFormed at h
  split at h
  · cases h
  · next p hd => exact ⟨p, hd, by simpa using h⟩

/-! The obligations. -/

/-- Settles O12: a commit and a fault entry are next states. -/
theorem everyStepAnswersNextState : Obligations.EveryStepAnswersNextState :=
  ⟨exec_next, step_next⟩

/-- Settles O14: the fault of the fetch or of the instruction, and RUN's answer at the end of the step. -/
theorem faultEntryIsPrecise : Obligations.FaultEntryIsPrecise := by
  intro s t hr h ht
  rcases step_running hr h with ⟨f, hf, rfl⟩ | ⟨i, u, hf, he, rfl⟩
  · exact ⟨f, .inl hf, rfl⟩
  · obtain ⟨f, rfl⟩ := Engine.effect_faulted hr (exec_effect he) ht
    exact ⟨f, .inr ⟨i, hf, he⟩, rfl⟩

/-- Settles O15: the fetch by its two stages, an instruction by the checks before its commit. -/
theorem faultsRaisedWhereListed : Obligations.FaultsRaisedWhereListed :=
  ⟨fun _ _ => fetch_raises, fun _ _ _ => exec_listed⟩

/-- Settles O34: the Immediate destination does not resolve, and an operand that does not is the fault taken. -/
theorem immediateDestinationFaults : Obligations.ImmediateDestinationFaults := by
  intro i s hw
  obtain ⟨⟨v, m⟩, hd, rfl⟩ := imm_destination_of_not_wellFormed hw
  exact exec_of_operand_raise (.inr ⟨_, hd, MemoryAndResolver.addressOf_imm v s⟩)

end Sys2Proof.Proofs.Faults

/-! What a step changes and what it leaves: memory and the extent (20_memory.md section 5), the relative base (10_state.md R22), and
the host's script and answers (49_host_interface.md R141, R143). -/

namespace Sys2Proof.Proofs.StepFrame

open Sys2Proof.Machine Sys2Proof.Laws Sys2Proof.Proofs.QueueAndLog Sys2Proof.Proofs.HostInterface

variable {s t u : State} {i : Instr}

/-! One instruction. -/

/-- `u` has the memory and the extent of `s`, or of `s` after one store, at the resolved and admitted destination of `i`. -/
def StoresAtMostOnce (i : Instr) (s u : State) : Prop :=
  (u.mem = s.mem ∧ u.ext = s.ext) ∨
  ∃ p c v, i.destination = some p ∧ addressOf p s = .ok c ∧ s.memAdmits c = true ∧
    u.mem = s.mem.write c v ∧ u.ext = max s.ext (c + 1)

theorem effect_stores (h : Effect s i u) : StoresAtMostOnce i s u := by
  cases h with
  | store p c v npc hd hn hc hp ha => exact .inr ⟨p, c, v, hd, hc, ha, rfl, rfl⟩
  | input p c v npc rest hc hq hp ha => exact .inr ⟨p, c, v, rfl, hc, ha, rfl, rfl⟩
  | fault | suspend | output | jump | fallThrough | adjust | halt => exact .inl ⟨rfl, rfl⟩

theorem effect_rb (h : Effect s i u) :
    u.rb = s.rb ∨ ∃ p a, i = .adjustRelativeBase p ∧ valueOf p s = .ok a ∧ u.rb.toInt = s.rb.toInt + a.toInt := by
  cases h with
  | adjust p a r npc hv hr => exact .inr ⟨p, a, rfl, hv, hr⟩
  | fault | store | input | suspend | output | jump | fallThrough | halt => exact .inl rfl

theorem effect_host (h : Effect s i u) : u.pending = s.pending ∧ u.responses = s.responses := by
  cases h <;> exact ⟨rfl, rfl⟩

/-! One step. -/

theorem step_stores (h : step s = .next t) :
    (t.mem = s.mem ∧ t.ext = s.ext) ∨
    (s.engine = .running ∧ ∃ i p c v, fetch s = .ok i ∧ i.destination = some p ∧ addressOf p s = .ok c ∧
      s.memAdmits c = true ∧ t.mem = s.mem.write c v ∧ t.ext = max s.ext (c + 1)) := by
  by_cases hr : s.engine = .running
  · rcases step_running hr h with ⟨f, -, rfl⟩ | ⟨i, u, hf, he, rfl⟩
    · exact .inl ⟨rfl, rfl⟩
    · rcases effect_stores (exec_effect he) with hkeep | ⟨p, c, v, hstore⟩
      · exact .inl hkeep
      · exact .inr ⟨hr, i, p, c, v, hf, hstore⟩
  · rw [eq_hostMove_of_step hr h, hostMove_frame]
    exact .inl ⟨rfl, rfl⟩

/-- A running step takes nothing from the script, and answers what its last state has RUN answer (R143). -/
theorem running_step_host (hr : s.engine = .running) (h : step s = .next t) :
    t.pending = s.pending ∧ t.responses = s.responses ++ t.runResponse := by
  rcases step_running hr h with ⟨f, -, rfl⟩ | ⟨i, u, -, he, rfl⟩
  · exact ⟨rfl, rfl⟩
  · obtain ⟨hp, hresp⟩ := effect_host (exec_effect he)
    exact ⟨hp, congrArg (· ++ u.runResponse) hresp⟩

/-! The obligations. -/

/-- Settles O22: the store of the step, its address resolved inside the address space. -/
theorem atMostOneStorePerStep : Obligations.AtMostOneStorePerStep := by
  intro s t h
  rcases step_stores h with hkeep | ⟨hr, i, p, c, v, hf, hd, hc, -, hm, hx⟩
  · exact .inl hkeep
  · refine .inr ⟨hr, i, p, c, hf, hd, hc, addressOf_le hc, fun a ha => ?_, hx⟩
    rw [memRead_eq, hm, read_write_other _ _ _ _ ha, memRead_eq]

/-- Settles O23: the address of a store is admitted, and a destination resolves to one address only. -/
theorem storesAreAdmitted : Obligations.StoresAreAdmitted := by
  refine ⟨fun s t h a hne => ?_, fun i s t p c hd hc hno h => ?_⟩
  · rcases step_stores h with ⟨hm, -⟩ | ⟨-, i, p, c, v, -, -, -, hadm, hm, -⟩
    · exact absurd (congrArg (Memory.read · a) hm) hne
    · obtain rfl : a = c := by
        by_contra ha
        exact hne (by rw [memRead_eq, hm, read_write_other _ _ _ _ ha, memRead_eq])
      exact hadm
  · rcases effect_stores (exec_effect h) with hkeep | ⟨p', c', v, hd', hc', hadm, -⟩
    · exact hkeep
    · obtain rfl : p = p' := Option.some.inj (hd.symm.trans hd')
      obtain rfl : c = c' := Checked.ok.inj (hc.symm.trans hc')
      simp [hno] at hadm

/-- Settles O37: of a running step only a completed AdjustRelativeBase moves the base, and the host's move never does. -/
theorem relativeBaseOnlyByAdjust : Obligations.RelativeBaseOnlyByAdjust := by
  intro s t h hne
  by_cases hr : s.engine = .running
  · rcases step_running hr h with ⟨f, -, rfl⟩ | ⟨i, u, hf, he, rfl⟩
    · exact absurd rfl hne
    · rcases effect_rb (exec_effect he) with hkeep | ⟨p, a, rfl, hv, hrb⟩
      · exact absurd hkeep hne
      · exact ⟨hr, p, a, hf, hv, hrb⟩
  · rw [eq_hostMove_of_step hr h, hostMove_frame] at hne
    exact absurd rfl hne

/-- Settles O42: the answer is a function of the state that the step leads to. -/
theorem runAnswersAtItsEnd : Obligations.RunAnswersAtItsEnd := by
  intro s t hr h
  obtain ⟨hp, hresp⟩ := running_step_host hr h
  refine ⟨hp, fun he => ?_, fun he => ?_, fun he => ?_, fun he => ?_⟩ <;> rw [hresp, State.runResponse, he]
  exact List.append_nil _

end Sys2Proof.Proofs.StepFrame

/-! The STATUS word bit by bit (10_state.md section 2), and the transactions that only read or that RUN answers at once
(40_engine.md section 2, 49_host_interface.md section 1). -/

namespace Sys2Proof.Proofs.StatusAndAnswers

open Sys2Proof.Machine Sys2Proof.Laws Sys2Proof.Proofs.HostInterface

variable {s : State}

/-! STATUS as a number: the state bits below, FAULT_CODE above them (R25). -/

theorem statusBits_lt (e : EngineState) : e.statusBits < 16 := by
  cases e <;> decide

theorem faultNumber_lt (s : State) : s.faultNumber < 8 := by
  unfold State.faultNumber
  split
  · decide
  · next f _ => cases f <;> decide

theorem status_toNat (s : State) : s.status.toNat = 2 ^ 4 * s.faultNumber + s.engine.statusBits := by
  have hbits := statusBits_lt s.engine
  have hfault := faultNumber_lt s
  rw [State.status, BitVec.toNat_ofNat]
  omega

/-- Bits 0 to 3 are the state bits. -/
theorem status_getLsbD_of_lt {k : Nat} (hk : k < 4) : s.status.getLsbD k = s.engine.statusBits.testBit k := by
  rw [BitVec.getLsbD, status_toNat, Nat.testBit_two_pow_mul_add _ (statusBits_lt s.engine), if_pos hk]

theorem status_getLsbD_of_ge {k : Nat} (hk : 8 ≤ k) : s.status.getLsbD k = false := by
  have hfault := faultNumber_lt s
  have hbits := statusBits_lt s.engine
  have hpow : 2 ^ 8 ≤ 2 ^ k := Nat.pow_le_pow_right (by decide) hk
  refine Nat.testBit_lt_two_pow (lt_of_lt_of_le ?_ hpow)
  rw [status_toNat]
  omega

/-- Each state bit belongs to one engine state. -/
theorem statusBits_testBit (e : EngineState) :
    e.statusBits.testBit 0 = decide (e = .halted) ∧ e.statusBits.testBit 1 = decide (e = .suspended) ∧
    e.statusBits.testBit 2 = decide (e = .faulted) ∧ e.statusBits.testBit 3 = decide (e = .running) := by
  cases e <;> decide

theorem statusBits_eq_zero_iff (e : EngineState) : e.statusBits = 0 ↔ e = .idle := by
  cases e <;> decide

/-! RUN on an ended machine. -/

/-- A HALTED or FAULTED machine enters no run: RUN answers at once (40_engine.md R96, R97). -/
theorem step_run_of_ended {rest : List HostCommand} (he : s.engine = .halted ∨ s.engine = .faulted)
    (hp : s.pending = .run :: rest) :
    step s = .next { s with pending := rest, responses := s.responses ++ s.runResponse } := by
  have hr : s.engine ≠ .running := by rcases he with he | he <;> simp [he]
  rw [step_serves hr hp]
  rcases he with he | he <;> simp only [serve, enterRun, he, State.respond, State.runResponse, State.faultNumber]

/-! The obligations. -/

/-- Settles O45: STATUS is a number of two digits to the base 16, the state bits and FAULT_CODE. -/
theorem statusWordLayout : Obligations.StatusWordLayout := by
  intro s
  have hbits := statusBits_lt s.engine
  have hfault := faultNumber_lt s
  have hstatus := status_toNat s
  obtain ⟨h0, h1, h2, h3⟩ := statusBits_testBit s.engine
  refine ⟨?_, ?_, ?_, ?_, ?_, fun k => status_getLsbD_of_ge, ?_⟩
  · rw [status_getLsbD_of_lt (by decide), h0]
  · rw [status_getLsbD_of_lt (by decide), h1]
  · rw [status_getLsbD_of_lt (by decide), h2]
  · rw [status_getLsbD_of_lt (by decide), h3]
  · rw [← statusBits_eq_zero_iff]
    omega
  · have hcode : s.status.toNat / 16 % 16 = s.faultNumber := by omega
    rw [hcode, State.faultNumber]
    cases s.faultCode with
    | none => rfl
    | some f => cases f <;> rfl

/-- Settles O40: RUN answers at once in FAULTED and HALTED. -/
theorem runOnEndedMachineAnswersAgain : Obligations.RunOnEndedMachineAnswersAgain := by
  intro s rest hp
  refine ⟨fun he => ?_, fun he => ?_⟩
  · rw [step_run_of_ended (.inr he) hp, State.runResponse, he]
  · rw [step_run_of_ended (.inl he) hp, State.runResponse, he]

/-- Settles O43: each transaction served; the two flags are tests of the engine state. -/
theorem readingTransactionsAnswer : Obligations.ReadingTransactionsAnswer := fun _ _ hr =>
  ⟨step_serves hr, step_serves hr, step_serves hr, step_serves hr⟩

end Sys2Proof.Proofs.StatusAndAnswers

/-! What a running step does not depend on (40_engine.md section 4): the host's script and answers, the tail of the input queue,
and, but for TruncatedInstruction, the extent (10_state.md R29). Suspending and being fed equals having the input queued. -/

namespace Sys2Proof.Proofs.Noninterference

open Sys2Proof.Machine Sys2Proof.Laws Sys2Proof.Proofs.StepFrame Sys2Proof.Proofs.HostInterface

variable {s t u : State} {i : Instr} {n : Nat}

/-! Runs. -/

theorem endOfStep_of_running (h : s.engine = .running) : endOfStep s = s := by
  have hnone : s.runResponse = [] := by simp only [State.runResponse, h]
  rw [endOfStep, hnone, State.respond, List.append_nil]

/-- A state that steps to itself does so for ever (40_engine.md R99). -/
theorem runSteps_of_step_self (h : step s = .next s) (n : Nat) : runSteps n s = .next s := by
  induction n with
  | zero => rfl
  | succ n ih => rw [runSteps_succ n h, ih]

theorem runSteps_add {m : Nat} (h : runSteps m s = .next t) (n : Nat) : runSteps (m + n) s = runSteps n t := by
  induction m generalizing s with
  | zero => cases h; rw [Nat.zero_add]
  | succ m ih =>
    obtain ⟨u, hu⟩ := Faults.step_next s
    rw [runSteps_succ m hu] at h
    rw [Nat.succ_add, runSteps_succ _ hu, ih h]

/-! The script, the answers and the tail of the queue. -/

/-- A running step beside another script, with words added at the tail of the queue unless it suspends; what it answers is the
same. -/
theorem running_step_along {q : List Word} (ps : List HostCommand) (rs : List HostResponse) (hr : s.engine = .running)
    (h : step s = .next t) (hq : q = [] ∨ t.engine ≠ .suspended) :
    step (along q ps rs s) = .next (along q ps (rs ++ t.runResponse) t) := by
  rcases step_running hr h with ⟨f, hf, rfl⟩ | ⟨i, u, hf, he, rfl⟩
  · exact step_of_raise hr ((fetch_along q ps rs s).trans hf)
  · exact step_of_exec (s := along q ps rs s) hr ((fetch_along q ps rs s).trans hf)
      (exec_along q ps rs (t := u) hq he)

/-- Equal machines differ in the script and the answers only. -/
theorem eq_along_of_machine_eq {s' : State} (h : s.machine = s'.machine) : s' = along [] s'.pending s'.responses s := by
  obtain ⟨mem, ext, pc, rb, engine, inQ, outLog, faultCode, faultPc, config, pending, responses⟩ := s
  cases s'
  cases h
  simp [along]

theorem machine_along_nil (ps : List HostCommand) (rs : List HostResponse) (s : State) :
    (along [] ps rs s).machine = s.machine := by
  simp [along, State.machine]

theorem running_step_of_machine_eq {s' : State} (hm : s.machine = s'.machine) (hr : s.engine = .running)
    (h : step s = .next t) : ∃ t', step s' = .next t' ∧ t'.machine = t.machine := by
  rw [eq_along_of_machine_eq hm, running_step_along _ _ hr h (.inl rfl)]
  exact ⟨_, rfl, machine_along_nil _ _ t⟩

/-! Equal machines with nothing left in the script stay equal, in a run and after its end. -/

/-- `t` and `u` are equal machines that no host drives. -/
def SameUndriven (t u : State) : Prop :=
  t.machine = u.machine ∧ t.pending = [] ∧ u.pending = []

theorem step_of_undriven (hr : s.engine ≠ .running) (hp : s.pending = []) : step s = .next s := by
  rw [step_notRunning hr, hostMove, hp]

theorem step_sameUndriven (h : SameUndriven t u) :
    ∃ t' u', step t = .next t' ∧ step u = .next u' ∧ SameUndriven t' u' := by
  obtain ⟨hm, ht, hu⟩ := h
  have heng : t.engine = u.engine := (congrArg State.engine hm :)
  by_cases hr : t.engine = .running
  · obtain ⟨t', ht'⟩ := Faults.step_next t
    obtain ⟨u', hu', hm'⟩ := running_step_of_machine_eq hm hr ht'
    exact ⟨t', u', ht', hu', hm'.symm, (running_step_host hr ht').1.trans ht,
      (running_step_host (heng ▸ hr) hu').1.trans hu⟩
  · exact ⟨t, u, step_of_undriven hr ht, step_of_undriven (heng ▸ hr) hu, hm, ht, hu⟩

theorem runSteps_sameUndriven (h : SameUndriven t u) (n : Nat) :
    ∃ t' u', runSteps n t = .next t' ∧ runSteps n u = .next u' ∧ SameUndriven t' u' := by
  induction n generalizing t u with
  | zero => exact ⟨t, u, rfl, rfl, h⟩
  | succ n ih =>
    obtain ⟨t', u', ht, hu, h'⟩ := step_sameUndriven h
    rw [runSteps_succ n ht, runSteps_succ n hu]
    exact ih h'

/-! Suspend, feed, run again. -/

/-- Feeding: as many steps as Words, each appended to the queue (49_host_interface.md R142). -/
theorem runSteps_feeds (hr : s.engine ≠ .running) (vs : List Word) {rest : List HostCommand}
    (hp : s.pending = vs.map .feed ++ rest) :
    runSteps vs.length s = .next { s with inQ := s.inQ ++ vs, pending := rest } := by
  induction vs generalizing s with
  | nil => simp only [runSteps, List.length_nil, List.append_nil, ← show s.pending = rest from hp]
  | cons v vs ih =>
    have hfeed : step s = .next { s with inQ := s.inQ ++ [v], pending := vs.map .feed ++ rest } := step_serves hr hp
    rw [List.length_cons, runSteps_succ _ hfeed,
      ih (s := { s with inQ := s.inQ ++ [v], pending := vs.map .feed ++ rest }) hr rfl]
    simp only [List.append_assoc, List.singleton_append]

/-- From an Input on an empty queue: it suspends, is fed `vs` and is run again, and stands before the Input with `vs` queued. -/
theorem runSteps_suspend_feed_run {p : Param} {c : Nat} (vs : List Word) (hr : s.engine = .running)
    (hf : fetch s = .ok (.input p)) (hc : addressOf p s = .ok c) (hq : s.inQ = [])
    (hp : s.pending = vs.map .feed ++ [.run]) :
    runSteps (vs.length + 2) s =
      .next { s with inQ := vs, pending := [], responses := s.responses ++ [.runSuspended] } := by
  have hsuspend := Engine.step_input_of_empty hr hf hc hq
  have hfeeds := runSteps_feeds (s := { s with engine := .suspended, responses := s.responses ++ [.runSuspended] })
    nofun vs hp
  rw [runSteps_succ (vs.length + 1) hsuspend, runSteps_add hfeeds 1, runSteps_succ 0 (Engine.step_run (.inr rfl) rfl),
    runSteps, hr, hq, List.nil_append]

/-! The extent: the fetch sees it in the number of operand words only (30_encoding.md R74). -/

/-- `s` with another extent. -/
def withExt (e : Nat) (s : State) : State :=
  { s with ext := e }

/-- More operand words change nothing, once there are enough. -/
theorem decodeOperands_of_prefix {op : Opcode} {strict : Bool} {md : Nat} {ws vs : List Word} (hp : ws <+: vs)
    (hlen : op.arity ≤ ws.length) : decodeOperands op strict md vs = decodeOperands op strict md ws := by
  obtain ⟨rest, rfl⟩ := hp
  match op, ws with
  | .halt, _ => rfl
  | .input, _ :: _ | .output, _ :: _ | .adjustRelativeBase, _ :: _ => rfl
  | .jumpIfTrue, _ :: _ :: _ | .jumpIfFalse, _ :: _ :: _ => rfl
  | .add, _ :: _ :: _ :: _ | .mul, _ :: _ :: _ :: _ | .lessThan, _ :: _ :: _ :: _ | .equal, _ :: _ :: _ :: _ => rfl

theorem decode_of_prefix {strict : Bool} {raw : Word} {ws vs : List Word} (hp : ws <+: vs)
    (hno : ∀ n, decode strict raw ws ≠ .raise (.truncatedInstruction n)) :
    decode strict raw vs = decode strict raw ws := by
  unfold decode at hno ⊢
  split
  · rfl
  · next h0 =>
    rw [if_neg h0] at hno
    cases hop : lookupOpcode (raw.toNat % 100) with
    | none => rfl
    | some op =>
      rw [hop] at hno
      refine decodeOperands_of_prefix hp (Nat.le_of_not_lt fun hlt => ?_)
      exact hno op.arity (decodeOperands_truncated.mpr ⟨hlt, rfl⟩)

/-- A fetch that does not truncate is the same where at least as many operand words are addressable. -/
theorem fetch_of_prefix {s' : State} (hmem : s'.mem = s.mem) (hpc : s'.pc = s.pc) (hcfg : s'.config = s.config)
    (h0 : 0 ≤ s.pc.toInt) (hp : s.operandWords s.pc.toNat <+: s'.operandWords s.pc.toNat)
    (hno : fetch s ≠ .raise .truncatedInstruction) : fetch s' = fetch s := by
  rw [fetch_of_pc h0] at hno
  have hdecode := decode_of_prefix hp fun n hn => hno (by rw [hn]; rfl)
  have hread : s'.memRead = s.memRead := by funext a; rw [memRead_eq, hmem, memRead_eq]
  rw [fetch_of_pc h0, fetch_of_pc (hpc ▸ h0), hpc, hcfg, hread, hdecode]

theorem fetch_withExt (e : Nat) (h : fetch s ≠ .raise .truncatedInstruction)
    (h' : fetch (withExt e s) ≠ .raise .truncatedInstruction) : fetch (withExt e s) = fetch s := by
  by_cases h0 : 0 ≤ s.pc.toInt
  · rcases List.prefix_or_prefix_of_prefix (EncodedWords.operandWords_prefix s s.pc.toNat)
      (EncodedWords.operandWords_prefix (withExt e s) s.pc.toNat) with hp | hp
    · exact fetch_of_prefix rfl rfl rfl h0 hp h
    · exact (fetch_of_prefix (s := withExt e s) (s' := s) rfl rfl rfl h0 hp h').symm
  · have hout : s.pc.toInt < 0 ∨ addrMax < s.pc.toInt := .inl (by omega)
    rw [Engine.fetch_of_invalid_pc hout, Engine.fetch_of_invalid_pc (s := withExt e s) hout]

/-! No instruction sees the extent. -/

/-- Two chains of checks go the same way and commit states that differ in the extent only. -/
inductive SameButExt : Checked FaultKind State → Checked FaultKind State → Prop where
  | ok (t : State) (e : Nat) : SameButExt (.ok t) (.ok (withExt e t))
  | raise (f : FaultKind) : SameButExt (.raise f) (.raise f)

theorem sameButExt_bind {α : Type} (x : Checked FaultKind α) {k k' : α → Checked FaultKind State}
    (h : ∀ a, SameButExt (k a) (k' a)) : SameButExt (x.bind k) (x.bind k') := by
  cases x with
  | ok a => exact h a
  | raise f => exact .raise f

/-- `o` is `o'` with some other extent. -/
def EqButExt (o o' : Host.Outcome State Fault Refusal) : Prop :=
  ∀ t, o = .next t → ∃ e, o' = .next (withExt e t)

theorem commitOrFault_withExt (e : Nat) {r r' : Checked FaultKind State} (h : SameButExt r r') :
    EqButExt (commitOrFault s r) (commitOrFault (withExt e s) r') := by
  rintro t ht
  cases h with
  | ok u e' => cases ht; exact ⟨e', rfl⟩
  | raise f => cases ht; exact ⟨e, rfl⟩

theorem storeResult_withExt (e : Nat) (f : Int → Int → Int) (p1 p2 p3 : Param) (s : State) :
    EqButExt (storeResult f p1 p2 p3 s) (storeResult f p1 p2 p3 (withExt e s)) :=
  commitOrFault_withExt e <|
    sameButExt_bind (valueOf p1 s) fun _ => sameButExt_bind (valueOf p2 s) fun _ =>
    sameButExt_bind (addressOf p3 s) fun c => sameButExt_bind (narrow _) fun _ =>
    sameButExt_bind (nextPc s 3) fun _ => sameButExt_bind (checkCapacity s c) fun _ => .ok _ (max e (c + 1))

theorem jumpIf_withExt (e : Nat) (taken : Word → Bool) (p1 p2 : Param) (s : State) :
    EqButExt (jumpIf taken p1 p2 s) (jumpIf taken p1 p2 (withExt e s)) := by
  refine commitOrFault_withExt e <|
    sameButExt_bind (valueOf p1 s) fun a => sameButExt_bind (valueOf p2 s) fun b => ?_
  split
  · exact .ok _ e
  · exact sameButExt_bind (nextPc s 2) fun _ => .ok _ e

theorem exec_withExt (e : Nat) (i : Instr) (s : State) : EqButExt (exec i s) (exec i (withExt e s)) := by
  cases i with
  | add => rw [exec_add, exec_add]; exact storeResult_withExt e _ _ _ _ s
  | mul => rw [exec_mul, exec_mul]; exact storeResult_withExt e _ _ _ _ s
  | lessThan => rw [exec_lessThan, exec_lessThan]; exact storeResult_withExt e _ _ _ _ s
  | equal => rw [exec_equal, exec_equal]; exact storeResult_withExt e _ _ _ _ s
  | jumpIfTrue => rw [exec_jumpIfTrue, exec_jumpIfTrue]; exact jumpIf_withExt e _ _ _ s
  | jumpIfFalse => rw [exec_jumpIfFalse, exec_jumpIfFalse]; exact jumpIf_withExt e _ _ _ s
  | input p =>
    refine commitOrFault_withExt e <| sameButExt_bind (addressOf p s) fun c => ?_
    have hq : (withExt e s).inQ = s.inQ := rfl
    rw [hq]
    split
    · exact .ok _ e
    · exact sameButExt_bind (nextPc s 1) fun _ => sameButExt_bind (checkCapacity s c) fun _ => .ok _ (max e (c + 1))
  | output p =>
    exact commitOrFault_withExt e <| sameButExt_bind (valueOf p s) fun _ => sameButExt_bind (nextPc s 1) fun _ => .ok _ e
  | adjustRelativeBase p =>
    exact commitOrFault_withExt e <|
      sameButExt_bind (valueOf p s) fun _ => sameButExt_bind (narrow _) fun _ =>
      sameButExt_bind (nextPc s 1) fun _ => .ok _ e
  | halt => exact commitOrFault_withExt e <| sameButExt_bind (nextPc s 0) fun _ => .ok _ e

/-! The obligations. -/

/-- Settles O17: the taken jump loads the pc it has, so the step leads back to the same state. -/
theorem endlessRunIsAdmitted : Obligations.EndlessRunIsAdmitted := by
  intro s hr hf
  have hjump : exec (.jumpIfTrue ⟨1, .imm⟩ ⟨s.pc, .imm⟩) s = .next s := by
    rw [exec_jumpIfTrue]
    exact Jumps.jumpIf_of_taken (MemoryAndResolver.valueOf_imm 1 s) (MemoryAndResolver.valueOf_imm s.pc s) rfl
  refine runSteps_of_step_self ?_
  rw [step_of_exec hr hf hjump, endOfStep_of_running hr]

/-- Settles O49: equal machines differ in the script and the answers, beside which the step is the same. -/
theorem runningStepIgnoresHost : Obligations.RunningStepIgnoresHost :=
  fun _ _ _ => running_step_of_machine_eq

/-- Settles O48: the step beside the same script, with words added at the tail. -/
theorem queueTailDoesNotMatter : Obligations.QueueTailDoesNotMatter := by
  intro s t q hr h ht
  obtain ⟨hp, hresp⟩ := running_step_host hr h
  have hsame : along q s.pending (s.responses ++ t.runResponse) t = { t with inQ := t.inQ ++ q } := by
    rw [along, ← hp, ← hresp]
  rw [← hsame]
  exact running_step_along s.pending s.responses hr h (.inr ht)

/-- Settles O47: both reach the state before the Input with `vs` queued, up to the answers, and from there go on alike. -/
theorem suspendResumeEqualsQueuedInput : Obligations.SuspendResumeEqualsQueuedInput := by
  intro s p c vs n hr hf hc hq
  have hresumed := runSteps_suspend_feed_run (s := { s with pending := vs.map .feed ++ [.run] }) vs hr
    ((fetch_congr rfl rfl rfl rfl).trans hf) ((addressOf_congr p rfl).trans hc) hq rfl
  rw [runSteps_add hresumed n]
  obtain ⟨t, u, ht, hu, hm, -, -⟩ := runSteps_sameUndriven (t := { s with inQ := vs, pending := [] })
    (u := { s with inQ := vs, pending := [], responses := s.responses ++ [.runSuspended] }) ⟨rfl, rfl, rfl⟩ n
  exact ⟨t, u, ht, hu, hm⟩

/-- Settles O55: the fetch sees the extent only where it truncates, and neither an instruction nor a fault entry sees it. -/
theorem extentObservedOnlyByTruncation : Obligations.ExtentObservedOnlyByTruncation := by
  intro s t e hr h hno hno'
  have hfetch := fetch_withExt e hno hno'
  refine ⟨hfetch, ?_⟩
  rcases step_running hr h with ⟨f, hf, rfl⟩ | ⟨i, u, hf, he, rfl⟩
  · exact ⟨e, step_of_raise (s := withExt e s) hr (hfetch.trans hf)⟩
  · obtain ⟨e', he'⟩ := exec_withExt e i s u he
    exact ⟨e', step_of_exec (s := withExt e s) hr (hfetch.trans hf) he'⟩

end Sys2Proof.Proofs.Noninterference

/-! Assembly text (30_encoding.md R81, R82): what the disassembler prints, and what the assembler does where the rules are silent
(log entries 19 to 22). -/

namespace Sys2Proof.Proofs.AssemblyText

open Sys2Proof.Machine Sys2Proof.Laws Sys2Proof.Proofs.AssembledWords

variable {i : Instr} {p1 p2 p3 : Param} {ps : List Param} {m : String} {program : List AsmLine} {ws : List Word}

/-! The text of an operand. -/

theorem toString_natAbs {x : Int} (h : 0 ≤ x) : toString x.natAbs = toString x := by
  obtain ⟨n, rfl⟩ := Int.eq_ofNat_of_zero_le h
  rfl

theorem text_rel_of_nonneg {v : Word} (h : 0 ≤ v.toInt) :
    Param.text ⟨v, .rel⟩ = "[rb+" ++ toString v.toInt ++ "]" := by
  rw [← toString_natAbs h]
  exact if_neg (Int.not_lt.mpr h)

theorem text_rel_of_neg {v : Word} (h : v.toInt < 0) :
    Param.text ⟨v, .rel⟩ = "[rb-" ++ toString (-v.toInt) ++ "]" := by
  rw [← toString_natAbs (x := -v.toInt) (by omega), Int.natAbs_neg]
  exact if_pos h

/-! The text of an instruction, by the number of its operands; `m` is its mnemonic with the blank after it (log entry 20). -/

theorem text_of_one (hp : i.params = [p1]) (hm : i.opcode.mnemonic ++ " " = m) : i.text = m ++ p1.text := by
  rw [Instr.text, hp, ← hm]
  rfl

theorem text_of_two (hp : i.params = [p1, p2]) (hm : i.opcode.mnemonic ++ " " = m) :
    i.text = m ++ p1.text ++ ", " ++ p2.text := by
  have hjoin : String.intercalate ", " [p1.text, p2.text] = p1.text ++ ", " ++ p2.text := rfl
  simp only [Instr.text, hp, ← hm, List.map_cons, List.map_nil, hjoin, String.append_assoc]

theorem text_of_three (hp : i.params = [p1, p2, p3]) (hm : i.opcode.mnemonic ++ " " = m) :
    i.text = m ++ p1.text ++ ", " ++ p2.text ++ ", " ++ p3.text := by
  have hjoin : String.intercalate ", " [p1.text, p2.text, p3.text] = p1.text ++ ", " ++ p2.text ++ ", " ++ p3.text := rfl
  simp only [Instr.text, hp, ← hm, List.map_cons, List.map_nil, hjoin, String.append_assoc]

/-- The disassembler prints a canonical word and its operand words as the instruction's text. -/
theorem disassemble_of_params {text : String} (rest : List Word) (hp : i.params = ps) (ht : i.text = text) :
    disassemble (BitVec.ofNat 64 (encodeNat i)) (ps.map Param.value ++ rest) = text := by
  rw [← hp, disassemble_encoded, ht]

/-- A canonical word with too few operand words after it does not decode, and prints as `.word` (log entry 21). -/
theorem disassemble_truncated {words : List Word} (h : words.length < i.opcode.arity) :
    disassemble (BitVec.ofNat 64 (encodeNat i)) words = ".word " ++ toString (encodeNat i) := by
  have hop : (BitVec.ofNat 64 (encodeNat i)).toNat % 100 = i.opcode.number := by rw [toNat_encodeNat, encodeNat_mod]
  have hdecode : decode false (BitVec.ofNat 64 (encodeNat i)) words = .raise (.truncatedInstruction i.opcode.arity) := by
    rw [decode_of_opcode (toInt_encodeNat i) hop, decodeOperands_truncated]
    exact ⟨h, rfl⟩
  have hint : (BitVec.ofNat 64 (encodeNat i)).toInt = encodeNat i := by
    rw [DecoderFaults.toInt_eq_toNat (toInt_encodeNat i), toNat_encodeNat]
  rw [disassemble, hdecode, hint]
  rfl

/-! A label stands for its first definition (log entry 19). -/

theorem asmLength_append (l₁ l₂ : List AsmLine) : asmLength (l₁ ++ l₂) = asmLength l₁ + asmLength l₂ := by
  simp [asmLength]

theorem int?_of_first_definition {before after : List AsmLine} {name : String}
    (hsplit : program = before ++ .label name :: after) (hfirst : AsmLine.label name ∉ before) :
    (AsmValue.label name).int? (labelsFrom 0 program) = some (asmLength before : Int) :=
  int?_label.mpr ⟨_, lookup_labelsFrom.mpr ⟨before, after, hsplit, hfirst, (Nat.zero_add _).symm⟩, rfl⟩

/-- The assembler's value of an `n` is any meaning of it, or an earlier definition, whose address is no higher. -/
theorem exists_int?_of_valueMeans {v : AsmValue} {n : Int} (h : ValueMeans program v n) :
    ∃ m, v.int? (labelsFrom 0 program) = some m ∧ (m = n ∨ (0 ≤ m ∧ m ≤ n)) := by
  cases v with
  | num k => exact ⟨k, rfl, .inl (Eq.symm h)⟩
  | label name =>
    obtain ⟨before, after, hsplit, rfl⟩ := h
    by_cases hm : AsmLine.label name ∈ before
    · obtain ⟨before', between, rfl, hfirst⟩ := List.eq_append_cons_of_mem hm
      rw [List.append_assoc, List.cons_append] at hsplit
      refine ⟨asmLength before', int?_of_first_definition hsplit hfirst, .inr ⟨by omega, ?_⟩⟩
      rw [asmLength_append]
      omega
    · exact ⟨_, int?_of_first_definition hsplit hm, .inl rfl⟩

/-! Every program that means something assembles. -/

/-- What is between 0 and a number whose operand word fits has an operand word as well. -/
theorem exists_signed {o : AsmOperand} {m n : Int} {w : Word} (hw : w.toInt = o.signed n) (hm : m = n ∨ (0 ≤ m ∧ m ≤ n)) :
    ∃ w' : Word, w'.toInt = o.signed m := by
  have hrange := toInt_range w
  rw [hw] at hrange
  refine ⟨_, toInt_ofInt ?_⟩
  cases o <;> simp only [AsmOperand.signed, wordMin, wordMax] at hrange ⊢ <;> omega

theorem exists_operand_word? {o : AsmOperand} {w : Word} (h : OperandMeans program o w) :
    ∃ w', o.word? (labelsFrom 0 program) = some w' := by
  obtain ⟨n, hn, hw⟩ := h
  obtain ⟨m, hm, hle⟩ := exists_int?_of_valueMeans hn
  obtain ⟨w', hw'⟩ := exists_signed hw hle
  exact ⟨w', operand_word?_eq_some.mpr ⟨m, hm, hw'⟩⟩

theorem exists_line_words? {l : AsmLine} (harity : ∀ opc operands, l = .op opc operands → operands.length = opc.arity)
    (hl : LineMeans program l) : ∃ ws, l.words? (labelsFrom 0 program) = some ws := by
  cases l with
  | label name => exact ⟨[], rfl⟩
  | op opc operands =>
    obtain ⟨vs, hvs⟩ := exists_forall₂ fun o ho => (hl o ho).elim fun _ => exists_operand_word?
    exact ⟨_, words?_op.mpr ⟨harity opc operands rfl, vs, hvs, rfl⟩⟩
  | words vs =>
    obtain ⟨ws, hws⟩ := exists_forall₂ fun v hv =>
      (hl v hv).elim fun w hw => exists_operand_word? (o := .pos v) ⟨w.toInt, hw, rfl⟩
    exact ⟨ws, mapM_eq_some.mpr hws⟩

theorem exists_assemble_of_means (harity : ∀ opc operands, .op opc operands ∈ program → operands.length = opc.arity)
    (hmeans : ∀ l ∈ program, LineMeans program l) : ∃ ws, assemble program = some ws := by
  obtain ⟨wss, hwss⟩ := exists_forall₂ fun l hl =>
    exists_line_words? (fun opc operands h => harity opc operands (h ▸ hl)) (hmeans l hl)
  exact ⟨_, assemble_eq_some.mpr ⟨wss, hwss, rfl⟩⟩

/-! What a program that assembles is made of. -/

theorem exists_of_forall₂ {α β : Type} {R : α → β → Prop} {l : List α} {r : List β} (h : List.Forall₂ R l r) {a : α}
    (ha : a ∈ l) : ∃ b, R a b := by
  obtain ⟨j, hj⟩ := List.getElem?_of_mem ha
  obtain ⟨b, -, hb⟩ := forall₂_getElem? h hj
  exact ⟨b, hb⟩

theorem line_words?_of_assemble (h : assemble program = some ws) {l : AsmLine} (hl : l ∈ program) :
    ∃ lw, l.words? (labelsFrom 0 program) = some lw := by
  obtain ⟨wss, hwss, -⟩ := assemble_eq_some.mp h
  exact exists_of_forall₂ hwss hl

theorem lineMeans_of_assemble (h : assemble program = some ws) {l : AsmLine} (hl : l ∈ program) : LineMeans program l := by
  obtain ⟨lw, hlw⟩ := line_words?_of_assemble h hl
  cases l with
  | label name => exact trivial
  | op opc operands =>
    obtain ⟨-, vs, hvs, -⟩ := words?_op.mp hlw
    exact fun o ho => (exists_of_forall₂ hvs ho).imp fun _ => operandMeans_of_word?
  | words vs =>
    exact fun v hv => (exists_of_forall₂ (mapM_eq_some.mp hlw) hv).imp fun _ hw => valueMeans_of_int? (word?_eq_some.mp hw)

theorem arity_of_assemble (h : assemble program = some ws) {opc : Opcode} {operands : List AsmOperand}
    (hl : .op opc operands ∈ program) : operands.length = opc.arity := by
  obtain ⟨lw, hlw⟩ := line_words?_of_assemble h hl
  exact (words?_op.mp hlw).1

/-- The assembler's word for an operand stands in the operand's place. -/
theorem operand_word?_placed {pre post : List AsmLine} {opc : Opcode} {operands : List AsmOperand} {j : Nat} {o : AsmOperand}
    (h : assemble program = some ws) (hsplit : program = pre ++ .op opc operands :: post) (ho : operands[j]? = some o) :
    ∃ w, ws[asmLength pre + 1 + j]? = some w ∧ o.word? (labelsFrom 0 program) = some w := by
  subst hsplit
  obtain ⟨lw, hlw, hplace⟩ := assemble_line h
  obtain ⟨-, vs, hvs, rfl⟩ := words?_op.mp hlw
  obtain ⟨w, hw, how⟩ := forall₂_getElem? hvs ho
  obtain ⟨hj, -⟩ := List.getElem?_eq_some_iff.mp hw
  refine ⟨w, ?_, how⟩
  rw [Nat.add_assoc, Nat.add_comm 1 j, hplace (j + 1) (Nat.succ_lt_succ hj), List.getElem?_cons_succ, hw]

/-- The assembler's word for a value of `.word` stands in the value's place. -/
theorem word?_placed {pre post : List AsmLine} {vs : List AsmValue} {j : Nat} {v : AsmValue}
    (h : assemble program = some ws) (hsplit : program = pre ++ .words vs :: post) (hv : vs[j]? = some v) :
    ∃ w, ws[asmLength pre + j]? = some w ∧ v.word? (labelsFrom 0 program) = some w := by
  subst hsplit
  obtain ⟨lw, hlw, hplace⟩ := assemble_line h
  obtain ⟨w, hw, hvw⟩ := forall₂_getElem? (mapM_eq_some.mp hlw) hv
  obtain ⟨hj, -⟩ := List.getElem?_eq_some_iff.mp hw
  exact ⟨w, by rw [hplace j hj, hw], hvw⟩

/-! The obligations. -/

/-- Settles O53: the disassembler prints the instruction's text, which is its mnemonic and the text of each operand. -/
theorem disassemblerPrintsNotation : Obligations.DisassemblerPrintsNotation := by
  refine ⟨fun v => ⟨rfl, rfl, text_rel_of_nonneg, text_rel_of_neg⟩, fun p1 p2 p3 rest => ⟨?add, ?mul, ?input, ?output,
    ?jumpIfTrue, ?jumpIfFalse, ?lessThan, ?equal, ?adjust⟩, disassemble_encoded .halt⟩
  case add | mul | lessThan | equal => exact disassemble_of_params rest rfl (text_of_three rfl rfl)
  case jumpIfTrue | jumpIfFalse => exact disassemble_of_params rest rfl (text_of_two rfl rfl)
  case input | output | adjust => exact disassemble_of_params rest rfl (text_of_one rfl rfl)

/-- Settles O54: a first definition stands no higher than any other, so a program that means something assembles; one that
assembles has the words and the meaning of its lines; and a canonical word that lacks operand words does not decode. -/
theorem assemblerChoices : Obligations.AssemblerChoices := by
  refine ⟨fun program => exists_assemble_of_means, fun program ws h => ⟨assemble_length h, fun before after => ⟨?_, ?_⟩⟩,
    fun program before after name ws h hsplit hfirst pre post j => ⟨?_, ?_⟩, fun program l hl hno => ?_,
    fun program opc operands hl hno => ?_, fun i words => disassemble_truncated⟩
  · intro opc operands hsplit
    exact ⟨arity_of_assemble h (by simp [hsplit]), assemble_op h hsplit⟩
  · intro vs hsplit j v
    exact assemble_words h hsplit
  · intro vs hwords hv
    obtain ⟨w, hw, hvw⟩ := word?_placed h hwords hv
    rw [word?_eq_some, int?_of_first_definition hsplit hfirst, Option.some.injEq] at hvw
    exact ⟨w, hw, hvw.symm⟩
  · intro opc operands o hop ho hv
    obtain ⟨w, hw, how⟩ := operand_word?_placed h hop ho
    obtain ⟨n, hn, hwn⟩ := operand_word?_eq_some.mp how
    rw [hv, int?_of_first_definition hsplit hfirst, Option.some.injEq] at hn
    exact ⟨w, hw, hn ▸ hwn⟩
  · exact Option.eq_none_iff_forall_ne_some.mpr fun ws h => hno (lineMeans_of_assemble h hl)
  · exact Option.eq_none_iff_forall_ne_some.mpr fun ws h => hno (arity_of_assemble h hl)

end Sys2Proof.Proofs.AssemblyText
